-- ==== Sys2Proof/Word.lean ====
section
/-! DEFINITION. The word types of SYNACOR-VM: the 16-bit cell, the 15-bit value, the register number
(spec/00_scope.md R8). -/

namespace Sys2Proof

/-- Half a cell, the unit in which an image reaches the loader (20_memory.md R57). -/
abbrev Byte := BitVec 8

/-- A cell, a stack entry, a program counter: 16 bits (00_scope.md R8). -/
abbrev Word := BitVec 16

/-- What a register holds and what an operand resolves to: a value in 0..32767 (00_scope.md R8). -/
abbrev Value := BitVec 15

/-- A register number, `r0` to `r7` (10_state.md R20). -/
abbrev RegIndex := Fin 8

end Sys2Proof
end

