-- ==== Sys2Proof/Config.lean ====
section
/-! DEFINITION. What is fixed for every block, and the one free value: the input oracle
(spec/00_scope.md R9). MEM_WORDS and STACK_DEPTH, the other parameters of R9, are fields of State, since
the load sets the first (70 R244) and a statement about every state then covers every value of the second. -/

namespace Sys2Proof

/-- The largest image the load takes, in cells (70_reset_and_hazards.md R244, D3). -/
def Config.memLimit : Nat := 32768

/-- The longest instruction, in cells (30_encoding.md R70). -/
def Config.longest : Nat := 4

/-- FREE VALUE (log 6; U5, D10): the answer of the input source to the n-th `poll()`. It has no body, so
nothing can be proved of it: every pattern of "no character" and of 15-bit codes stays possible
(45_io.md R193, R194). -/
opaque Config.inputAnswer : Nat → Option Value

end Sys2Proof
end

