-- ==== Sys2Proof/Syntax.lean ====
section
/-! DEFINITION. The instruction set: one constructor of `Instr` per row of spec/opcode_table.json
(30_encoding.md R82), and the abstract syntax of the spec's assembler notation (R88). -/

namespace Sys2Proof

/-- The 22 opcodes in the order of the table (30_encoding.md R82). `input` is the table's `in`, a word
that Lean keeps for itself. -/
inductive Opcode
  | halt | set | push | pop | eq | gt | jmp | jt | jf | add | mult
  | mod | and | or | not | rmem | wmem | call | ret | out | input | noop
  deriving DecidableEq, Repr

/-- How an operand cell is decoded: by `asRegisterIndex` or by `resolve` (30_encoding.md R78, R82). -/
inductive OperandKind
  | dest
  | source
  deriving DecidableEq, Repr

/-- A source operand as decoded, before a register is read: a literal or a register reference
(30_encoding.md R74). -/
inductive Source
  | lit (v : Value)
  | reg (r : RegIndex)
  deriving DecidableEq, Repr

/-- A decoded instruction. Operand order is that of the table (30_encoding.md R82). -/
inductive Instr
  | halt
  | set (dest : RegIndex) (src : Source)
  | push (src : Source)
  | pop (dest : RegIndex)
  | eq (dest : RegIndex) (a b : Source)
  | gt (dest : RegIndex) (a b : Source)
  | jmp (target : Source)
  | jt (cond target : Source)
  | jf (cond target : Source)
  | add (dest : RegIndex) (a b : Source)
  | mult (dest : RegIndex) (a b : Source)
  | mod (dest : RegIndex) (a b : Source)
  | and (dest : RegIndex) (a b : Source)
  | or (dest : RegIndex) (a b : Source)
  | not (dest : RegIndex) (a : Source)
  | rmem (dest : RegIndex) (addr : Source)
  | wmem (addr src : Source)
  | call (target : Source)
  | ret
  | out (val : Source)
  | input (dest : RegIndex)
  | noop
  deriving DecidableEq, Repr

/-- An operand as an assembler line writes it, not yet checked (30_encoding.md R88). -/
inductive AsmOperand
  | reg (i : Nat)
  | lit (n : Nat)
  | label (name : String)
  deriving DecidableEq, Repr

/-- A line of the spec's assembler notation: an instruction, a data cell `.word v`, or a label
(30_encoding.md R88). -/
inductive AsmItem
  | instr (op : Opcode) (operands : List AsmOperand)
  | word (v : Nat)
  | label (name : String)
  deriving DecidableEq, Repr

end Sys2Proof
end

