-- ==== Sys2Proof/WellFormed.lean ====
section
/-! DEFINITION. What a well-formed instruction is, as cells and as an assembler line. A term of `Instr` is
well formed by its types (a register number is below 8, a literal is 15 bits wide); what can be ill formed
is the sequence of cells it comes from (30_encoding.md R85) and the line that is written for it (R89).
The table of operand kinds here is written from R82 on its own, apart from the decoder's. -/

namespace Sys2Proof

/-- The operand kinds of an opcode number; none where the number is no opcode
(30_encoding.md R81, R82, R83). -/
def operandKinds : Nat → Option (List OperandKind)
  | 0 | 18 | 21 => some []
  | 2 | 6 | 17 | 19 => some [.source]
  | 3 | 20 => some [.dest]
  | 1 | 14 | 15 => some [.dest, .source]
  | 7 | 8 | 16 => some [.source, .source]
  | 4 | 5 | 9 | 10 | 11 | 12 | 13 => some [.dest, .source, .source]
  | _ => none

/-- A raw cell is valid as an operand of its kind (30_encoding.md R75, R77, R85). -/
def operandCellOk : OperandKind → Word → Bool
  | .dest, w => decide (32768 ≤ w.toNat) && decide (w.toNat < 32776)
  | .source, w => decide (w.toNat < 32776)

/-- Each cell is valid for the kind in its place, and there are as many cells as kinds. -/
def operandCellsOk : List OperandKind → List Word → Bool
  | [], [] => true
  | k :: ks, w :: ws => operandCellOk k w && operandCellsOk ks ws
  | _, _ => false

/-- The cells are those of exactly one instruction (30_encoding.md R70, R73, R85, R87). -/
def cellsWellFormed : List Word → Bool
  | [] => false
  | op :: ws =>
    match operandKinds op.toNat with
    | none => false
    | some ks => operandCellsOk ks ws

/-- The number of an opcode, for the assembler's check alone: the place of its row in the table
(30_encoding.md R82, D1). -/
def Opcode.row : Opcode → Nat
  | .halt => 0 | .set => 1 | .push => 2 | .pop => 3 | .eq => 4 | .gt => 5 | .jmp => 6 | .jt => 7
  | .jf => 8 | .add => 9 | .mult => 10 | .mod => 11 | .and => 12 | .or => 13 | .not => 14
  | .rmem => 15 | .wmem => 16 | .call => 17 | .ret => 18 | .out => 19 | .input => 20 | .noop => 21

/-- An assembler operand may stand in a place of this kind. Refused are a literal or a label in a dest
place, a literal above 32767, a register outside r0..r7 (30_encoding.md R89). -/
def AsmOperand.ok : OperandKind → AsmOperand → Bool
  | .dest, .reg i => decide (i < 8)
  | .dest, .lit _ => false
  | .dest, .label _ => false
  | .source, .reg i => decide (i < 8)
  | .source, .lit n => decide (n ≤ 32767)
  | .source, .label _ => true

/-- The operands of a line fit the kinds, one for one. -/
def AsmOperand.allOk : List OperandKind → List AsmOperand → Bool
  | [], [] => true
  | k :: ks, o :: os => o.ok k && AsmOperand.allOk ks os
  | _, _ => false

/-- An assembler line is well formed (30_encoding.md R88, R89). -/
def AsmItem.wellFormed : AsmItem → Bool
  | .instr op os => AsmOperand.allOk ((operandKinds op.row).getD []) os
  | .word v => decide (v < 65536)
  | .label _ => true

end Sys2Proof
end

