-- ==== Sys2Proof/Decode.lean ====
section
/-! DEFINITION. The decoder, total on any cells and rejecting by name, and the encoder after it
(30_encoding.md R70 to R87). The decoder reads a list of cells, the first at the instruction's address; the
list ends where memory ends, so running out of cells is the out-of-bounds fetch of 40_fetch_dispatch.md R102. -/

namespace Sys2Proof

/-- The decode of an opcode cell: its raw value compared with 0..21 (30_encoding.md R81, R82). -/
def opcodeOf (w : Word) : Option Opcode :=
  match w.toNat with
  | 0 => some .halt
  | 1 => some .set
  | 2 => some .push
  | 3 => some .pop
  | 4 => some .eq
  | 5 => some .gt
  | 6 => some .jmp
  | 7 => some .jt
  | 8 => some .jf
  | 9 => some .add
  | 10 => some .mult
  | 11 => some .mod
  | 12 => some .and
  | 13 => some .or
  | 14 => some .not
  | 15 => some .rmem
  | 16 => some .wmem
  | 17 => some .call
  | 18 => some .ret
  | 19 => some .out
  | 20 => some .input
  | 21 => some .noop
  | _ => none

/-- The classification of a raw source cell: literal, register reference, or invalid
(30_encoding.md R74, R75). -/
def sourceOf (raw : Word) : Option Source :=
  if raw.toNat < 32768 then some (.lit (raw.setWidth 15))
  else if h : raw.toNat < 32776 then some (.reg ⟨raw.toNat - 32768, by omega⟩)
  else none

/-- The decode of a raw dest cell (30_encoding.md R77). -/
def asRegisterIndex (raw : Word) : Option RegIndex :=
  if h : 32768 ≤ raw.toNat ∧ raw.toNat < 32776 then some ⟨raw.toNat - 32768, by omega⟩
  else none

/-- Why cells are no instruction: the opcode cell and the operand cells fetched, in order, where there
are any (30_encoding.md R85, 40_fetch_dispatch.md R102 to R104). -/
inductive DecodeFailure
  /-- There is no cell where the opcode should be (R102). -/
  | noOpcodeCell
  /-- The opcode cell holds 22 or more (R103). -/
  | unknownOpcode (op : Word)
  /-- There is no cell where the next operand should be (R102). -/
  | noOperandCell (op : Word) (got : List Word)
  /-- The last cell of `got` stands in a dest place and names no register (R77). -/
  | invalidDestination (op : Word) (got : List Word)
  /-- The last cell of `got` stands in a source place and is 32776 or more (R75). -/
  | invalidOperand (op : Word) (got : List Word)
  deriving DecidableEq, Repr

/-- What decoding gives: an instruction and the cells after it, or the reason there is none. -/
inductive Decoded
  | instr (i : Instr) (rest : List Word)
  | failed (why : DecodeFailure)
  deriving DecidableEq, Repr

/-- Fetch and decode one dest operand, then go on (40_fetch_dispatch.md R104). `got` is what has been
fetched of the operands so far. -/
def readDest (op : Word) (got cells : List Word) (go : RegIndex → List Word → List Word → Decoded) :
    Decoded :=
  match cells with
  | [] => .failed (.noOperandCell op got)
  | raw :: rest =>
    match asRegisterIndex raw with
    | none => .failed (.invalidDestination op (got ++ [raw]))
    | some d => go d (got ++ [raw]) rest

/-- Fetch and decode one source operand, then go on (40_fetch_dispatch.md R104). -/
def readSource (op : Word) (got cells : List Word) (go : Source → List Word → List Word → Decoded) :
    Decoded :=
  match cells with
  | [] => .failed (.noOperandCell op got)
  | raw :: rest =>
    match sourceOf raw with
    | none => .failed (.invalidOperand op (got ++ [raw]))
    | some a => go a (got ++ [raw]) rest

/-- Format F1 with a source operand (30_encoding.md R72). -/
def readS (op : Word) (cells : List Word) (mk : Source → Instr) : Decoded :=
  readSource op [] cells fun a _ rest => .instr (mk a) rest

/-- Format F1 with a dest operand. -/
def readD (op : Word) (cells : List Word) (mk : RegIndex → Instr) : Decoded :=
  readDest op [] cells fun d _ rest => .instr (mk d) rest

/-- Format F2 with two source operands. -/
def readSS (op : Word) (cells : List Word) (mk : Source → Source → Instr) : Decoded :=
  readSource op [] cells fun a got rest =>
    readSource op got rest fun b _ rest => .instr (mk a b) rest

/-- Format F2 with a dest and a source operand. -/
def readDS (op : Word) (cells : List Word) (mk : RegIndex → Source → Instr) : Decoded :=
  readDest op [] cells fun d got rest =>
    readSource op got rest fun a _ rest => .instr (mk d a) rest

/-- Format F3: a dest and two source operands. -/
def readDSS (op : Word) (cells : List Word) (mk : RegIndex → Source → Source → Instr) : Decoded :=
  readDest op [] cells fun d got rest =>
    readSource op got rest fun a got rest =>
      readSource op got rest fun b _ rest => .instr (mk d a b) rest

/-- The decoder. The opcode is checked before any operand cell is looked at, and operand cells are
fetched and decoded one at a time (30_encoding.md R82, 40_fetch_dispatch.md R103, R104). -/
def decode : List Word → Decoded
  | [] => .failed .noOpcodeCell
  | op :: cells =>
    match opcodeOf op with
    | none => .failed (.unknownOpcode op)
    | some .halt => .instr .halt cells
    | some .set => readDS op cells .set
    | some .push => readS op cells .push
    | some .pop => readD op cells .pop
    | some .eq => readDSS op cells .eq
    | some .gt => readDSS op cells .gt
    | some .jmp => readS op cells .jmp
    | some .jt => readSS op cells .jt
    | some .jf => readSS op cells .jf
    | some .add => readDSS op cells .add
    | some .mult => readDSS op cells .mult
    | some .mod => readDSS op cells .mod
    | some .and => readDSS op cells .and
    | some .or => readDSS op cells .or
    | some .not => readDS op cells .not
    | some .rmem => readDS op cells .rmem
    | some .wmem => readSS op cells .wmem
    | some .call => readS op cells .call
    | some .ret => .instr .ret cells
    | some .out => readS op cells .out
    | some .input => readD op cells .input
    | some .noop => .instr .noop cells

/-- The instruction decoded, if one was. -/
def Decoded.instr? : Decoded → Option Instr
  | .instr i _ => some i
  | .failed _ => none

/-- The raw cell of a register reference (10_state.md R21). -/
def registerCell (r : RegIndex) : Word := BitVec.ofNat 16 (32768 + r.val)

/-- The raw cell of a source operand (30_encoding.md R74, R88). -/
def sourceCell : Source → Word
  | .lit v => v.setWidth 16
  | .reg r => registerCell r

/-- The opcode cell of an instruction (30_encoding.md R82). -/
def opcodeCell : Instr → Word
  | .halt => 0
  | .set _ _ => 1
  | .push _ => 2
  | .pop _ => 3
  | .eq _ _ _ => 4
  | .gt _ _ _ => 5
  | .jmp _ => 6
  | .jt _ _ => 7
  | .jf _ _ => 8
  | .add _ _ _ => 9
  | .mult _ _ _ => 10
  | .mod _ _ _ => 11
  | .and _ _ _ => 12
  | .or _ _ _ => 13
  | .not _ _ => 14
  | .rmem _ _ => 15
  | .wmem _ _ => 16
  | .call _ => 17
  | .ret => 18
  | .out _ => 19
  | .input _ => 20
  | .noop => 21

/-- The operand cells of an instruction, in operand order (30_encoding.md R80, R82). -/
def operandCells : Instr → List Word
  | .halt => []
  | .set d a => [registerCell d, sourceCell a]
  | .push a => [sourceCell a]
  | .pop d => [registerCell d]
  | .eq d a b => [registerCell d, sourceCell a, sourceCell b]
  | .gt d a b => [registerCell d, sourceCell a, sourceCell b]
  | .jmp t => [sourceCell t]
  | .jt c t => [sourceCell c, sourceCell t]
  | .jf c t => [sourceCell c, sourceCell t]
  | .add d a b => [registerCell d, sourceCell a, sourceCell b]
  | .mult d a b => [registerCell d, sourceCell a, sourceCell b]
  | .mod d a b => [registerCell d, sourceCell a, sourceCell b]
  | .and d a b => [registerCell d, sourceCell a, sourceCell b]
  | .or d a b => [registerCell d, sourceCell a, sourceCell b]
  | .not d a => [registerCell d, sourceCell a]
  | .rmem d a => [registerCell d, sourceCell a]
  | .wmem a v => [sourceCell a, sourceCell v]
  | .call t => [sourceCell t]
  | .ret => []
  | .out a => [sourceCell a]
  | .input d => [registerCell d]
  | .noop => []

/-- The encoder: the cells of an instruction (30_encoding.md R82). -/
def encode (i : Instr) : List Word := opcodeCell i :: operandCells i

/-- `length(op) = 1 + arity(op)`, in cells (30_encoding.md R73). -/
def Instr.length (i : Instr) : Nat := 1 + (operandCells i).length

/-- `n` cells from a number, the first in its lowest 16 bits. -/
def cellsOfNat : Nat → Nat → List Word
  | 0, _ => []
  | n + 1, w => BitVec.ofNat 16 w :: cellsOfNat n (w / 65536)

/-- The cells of an instruction given by its lowest `nbits` bits, zeros above them, up to the longest
instruction. -/
def tableCells (nbits w : Nat) : List Word := cellsOfNat Config.longest (w % 2 ^ nbits)

/-- What the decoder reads from an instruction whose bits are `w`, numbered as the opcode table
numbers them. A row with a dest operand, asked for with operand cells of zeros, is refused: 0 names no
register (30_encoding.md R77). -/
def decodeTableWord (nbits w : Nat) : Option Instr := (decode (tableCells nbits w)).instr?

end Sys2Proof
end

