-- ==== Sys2Proof/Machine/State.lean ====
section
/-! DEFINITION. The state of the block as plain data (spec/10_state.md), the reasons a step can stop, and
the machine right after reset (70_reset_and_hazards.md R240). -/

namespace Sys2Proof.Machine

/-- The run state (10_state.md R33). -/
inductive RunState
  | running
  | halted
  | faulted
  deriving DecidableEq, Repr

/-- The faults of the spec, and `none` for "no fault recorded" (60_exceptions.md R200). Each is taken by
the block itself: its entry is a next state (R205), no stop of the model. -/
inductive FaultKind
  | none
  | invalidOperand
  | invalidDestination
  | unknownOpcode
  | stackUnderflow
  | divideByZero
  | outOfBounds
  | stackOverflow
  deriving DecidableEq, Repr

/-- The access that was out of bounds: `fault_access` (10_state.md R34). -/
inductive AccessKind
  | none
  | fetch
  | read
  | write
  deriving DecidableEq, Repr

/-- The fault record, field by field (10_state.md R34). -/
structure FaultRecord where
  kind : FaultKind
  pc : Word
  opcode : Word
  nops : BitVec 2
  operand0 : Word
  operand1 : Word
  operand2 : Word
  addr : Word
  access : AccessKind
  deriving DecidableEq, Repr

/-- The record that holds no fault: every field 0 (70_reset_and_hazards.md R240). -/
def FaultRecord.clear : FaultRecord where
  kind := .none
  pc := 0
  opcode := 0
  nops := 0
  operand0 := 0
  operand1 := 0
  operand2 := 0
  addr := 0
  access := .none

/-- The state of the block. Fields are the spec's but for `polls`, the model's own. -/
structure State where
  /-- `r0` to `r7` (R20). -/
  regs : Vector Value 8
  /-- The program counter, a word address (R25). -/
  pc : Word
  /-- The stack, bottom first, the top last (R28). -/
  stack : List Word
  /-- Memory as bytes: cell `k` is byte `2k` (low) and byte `2k+1` (high) (R32, 20_memory.md R57; log 1).
  Addresses strictly rising, no byte 0 listed (log 2). -/
  mem : List Host.Cell
  /-- MEM_WORDS, set by the load (00_scope.md R9, 70_reset_and_hazards.md R244; log 3). -/
  memWords : Nat
  /-- STACK_DEPTH; `none` is unbounded. No step and no host operation writes it (00_scope.md R9; log 5). -/
  stackDepth : Option Nat
  /-- The run state (R33). -/
  run : RunState
  /-- The fault record (R34). -/
  faultRec : FaultRecord
  /-- Every value emitted, oldest first (R38, 45_io.md R190). -/
  output : List Value
  /-- The MODEL's own: how many `poll()` have been made, the index into `Config.inputAnswer` (log 6). -/
  polls : Nat
  /-- The host's run enable (60_exceptions.md R222; log 7). -/
  runEnable : Bool
  /-- Whether the host holds reset asserted (60_exceptions.md R215; log 7). -/
  inReset : Bool
  deriving DecidableEq, Repr

/-- Why the block makes no step (40_fetch_dispatch.md R105; log 8). Only `step` raises these, and only
before it fetches; no instruction does. Each is safe: the spec has no step there either. The faults of the
spec are `FaultKind`, not these. -/
inductive Fault
  /-- Raised by `step` where `run = HALTED`: the clean stop. Safe (R105). -/
  | halted
  /-- Raised by `step` where `run = FAULTED`. Safe (R105). -/
  | faulted
  /-- Raised by `step` where the host holds the block paused. Safe (R105, R222). -/
  | paused
  /-- Raised by `step` where the host holds reset asserted. Safe (R246). -/
  | inReset
  deriving DecidableEq, Repr

/-- Why an instruction has no meaning. -/
inductive Refusal
  /-- Raised by `exec` for an instruction with no meaning yet; safe. No arm raises it: all 22 are
  modelled. -/
  | notModelled (mnemonic : String)
  deriving DecidableEq, Repr

/-- The machine right after reset (70_reset_and_hazards.md R240): registers and pc 0, stack empty, RUNNING,
record clear, no output. No image is loaded, so no cell exists yet (log 3); STACK_DEPTH is unbounded
(log 5); no poll has been made (log 6); reset is released and the block enabled (log 7). -/
def State.reset : State where
  regs := Vector.replicate 8 0
  pc := 0
  stack := []
  mem := []
  memWords := 0
  stackDepth := none
  run := .running
  faultRec := FaultRecord.clear
  output := []
  polls := 0
  runEnable := true
  inReset := false

end Sys2Proof.Machine
end

