-- ==== Sys2Proof/Machine/Ops.lean ====
section
/-! DEFINITION. The named operations over memory, registers, stack, program counter, output and input, and
taking a fault. Every read and write of the state by an instruction goes through these. -/

namespace Sys2Proof.Machine

/-! ## Memory (spec/20_memory.md) -/

/-- What an address that is not listed reads as (log 2). -/
def Memory.unlisted : Byte := 0

/-- The byte at a byte address. -/
def Memory.readByte : List Host.Cell → Nat → Byte
  | [], _ => Memory.unlisted
  | (b, w) :: m, a => if b = a then w else Memory.readByte m a

/-- Write one byte, keeping the canonical form: a byte equal to what an unlisted address reads as is not
listed. -/
def Memory.writeByte : List Host.Cell → Nat → Byte → List Host.Cell
  | [], a, v => if v = Memory.unlisted then [] else [(a, v)]
  | (b, w) :: m, a, v =>
    if a < b then if v = Memory.unlisted then (b, w) :: m else (a, v) :: (b, w) :: m
    else if a = b then if v = Memory.unlisted then m else (a, v) :: m
    else (b, w) :: Memory.writeByte m a v

/-- The canonical form from address `lo` on: addresses strictly rising, no byte listed that an unlisted
address reads as. -/
def Memory.wfFrom : Nat → List Host.Cell → Bool
  | _, [] => true
  | lo, (a, v) :: m => decide (lo ≤ a) && decide (v ≠ Memory.unlisted) && Memory.wfFrom (a + 1) m

/-- The canonical form of memory. -/
def Memory.wf (m : List Host.Cell) : Bool := Memory.wfFrom 0 m

/-- The cell at a word address: the byte at `2k` its low half, the byte at `2k+1` its high half
(R52, R56, R57). -/
def Memory.readCell (m : List Host.Cell) (k : Nat) : Word :=
  Memory.readByte m (2 * k + 1) ++ Memory.readByte m (2 * k)

/-- Store a cell (R56). -/
def Memory.writeCell (m : List Host.Cell) (k : Nat) (v : Word) : List Host.Cell :=
  Memory.writeByte (Memory.writeByte m (2 * k) (v.extractLsb' 0 8)) (2 * k + 1) (v.extractLsb' 8 8)

/-- Memory that holds the cells of an image from word address `k` on (70_reset_and_hazards.md R244). -/
def Memory.ofImage : Nat → List Word → List Host.Cell
  | _, [] => []
  | k, w :: ws => Memory.writeCell (Memory.ofImage (k + 1) ws) k w

/-- The address exists: it is below MEM_WORDS (R54, R60). -/
def State.inBounds (s : State) (k : Nat) : Bool := decide (k < s.memWords)

/-- `MemRead(k, 1)`, the full raw cell (R56). The bound is checked by who calls it (R54). -/
def State.cell (s : State) (k : Nat) : Word := Memory.readCell s.mem k

/-- `MemWrite(k, 1, v)` (R56). The bound is checked by who calls it (R54). -/
def State.setCell (s : State) (k : Nat) (v : Word) : State := { s with mem := Memory.writeCell s.mem k v }

/-! ## Registers and program counter (spec/10_state.md) -/

/-- `x[r]` (00_scope.md R11). -/
def State.reg (s : State) (r : RegIndex) : Value := s.regs[r]

/-- `x[r] <- v` for a value of 15 bits. -/
def State.setReg (s : State) (r : RegIndex) (v : Value) : State := { s with regs := s.regs.set r v }

/-- `x[r] <- w` for 16 bits: the low 15 bits are stored (R23, D6). -/
def State.setRegWord (s : State) (r : RegIndex) (w : Word) : State := s.setReg r (w.setWidth 15)

/-- `pc <- target` (R25). -/
def State.goto (s : State) (target : Word) : State := { s with pc := target }

/-- `next_pc` of an instruction of `n` cells: the address just past it (00_scope.md R14,
40_fetch_dispatch.md R101). Beyond 65535 it would wrap, which R26 shows no step reaches (log 13). -/
def State.nextPc (s : State) (n : Nat) : Word := s.pc + BitVec.ofNat 16 n

/-- `pc <- next_pc` (40_fetch_dispatch.md R109). -/
def State.advance (s : State) (n : Nat) : State := s.goto (s.nextPc n)

/-! ## Stack (spec/10_state.md R28 to R30) -/

/-- The stack holds STACK_DEPTH entries already; never so where it is unbounded (R30). -/
def State.stackFull (s : State) : Bool :=
  match s.stackDepth with
  | none => false
  | some n => decide (n ≤ s.stack.length)

/-- `Push(v)` (00_scope.md R11). Fullness is checked by who calls it. -/
def State.push (s : State) (v : Word) : State := { s with stack := s.stack ++ [v] }

/-- The top of the stack, if there is one. -/
def State.top? (s : State) : Option Word := s.stack.getLast?

/-- The state with the top of the stack removed. -/
def State.dropTop (s : State) : State := { s with stack := s.stack.dropLast }

/-! ## Output and input (spec/45_io.md) -/

/-- `emit(v)`: the value joins the output trace (R190). -/
def State.emit (s : State) (v : Value) : State := { s with output := s.output ++ [v] }

/-- The answer of the input source to the next `poll()` (R194; log 6). -/
def State.pollAnswer (s : State) : Option Value := Config.inputAnswer s.polls

/-- What `poll()` leaves when it is answered with `answer`: a character goes to the register, no character
leaves it; either way the poll has been made (R194, R195). -/
def State.receive (s : State) (d : RegIndex) (answer : Option Value) : State :=
  { s.setReg d (answer.getD (s.reg d)) with polls := s.polls + 1 }

/-! ## Run state and faults (spec/60_exceptions.md) -/

/-- `run <- HALTED` (43_control_flow.md R160). -/
def State.halt (s : State) : State := { s with run := .halted }

/-- FAULT ENTRY, the one operation that takes a fault (R205, R206): `run <- FAULTED`, the record written
with the pc of the instruction, which `s.pc` still is, and nothing else changed. `operands` are the operand
cells fetched before the fault, in order. -/
def State.takeFault (s : State) (kind : FaultKind) (opcode : Word) (operands : List Word)
    (access : AccessKind) (addr : Word) : State :=
  { s with
    run := .faulted
    faultRec :=
      { kind := kind
        pc := s.pc
        opcode := opcode
        nops := BitVec.ofNat 2 operands.length
        operand0 := operands.getD 0 0
        operand1 := operands.getD 1 0
        operand2 := operands.getD 2 0
        addr := addr
        access := access } }

/-- A fault in the execute of `i`, whose cells have all been fetched (R206; log 4). -/
def State.takeExecFault (s : State) (i : Instr) (kind : FaultKind) : State :=
  s.takeFault kind (opcodeCell i) (operandCells i) .none 0

/-- An out-of-bounds access in the execute of `i` (R200, R206; log 4). -/
def State.takeBoundsFault (s : State) (i : Instr) (access : AccessKind) (addr : Word) : State :=
  s.takeFault .outOfBounds (opcodeCell i) (operandCells i) access addr

/-- A fault in the fetch or the decode of the instruction at the pc (R200, R206). A cell that is not there
is missing at the fetch counter, `ia` plus the cells fetched so far (40_fetch_dispatch.md R101, R102). -/
def State.takeDecodeFault (s : State) : DecodeFailure → State
  | .noOpcodeCell => s.takeFault .outOfBounds 0 [] .fetch s.pc
  | .unknownOpcode op => s.takeFault .unknownOpcode op [] .none 0
  | .noOperandCell op got => s.takeFault .outOfBounds op got .fetch (s.nextPc (1 + got.length))
  | .invalidDestination op got => s.takeFault .invalidDestination op got .none 0
  | .invalidOperand op got => s.takeFault .invalidOperand op got .none 0

/-- LEAVING A FAULT. There is no trap return (R207); what leaves `HALTED` and `FAULTED` is reset, which puts
every item of 70_reset_and_hazards.md R240 in its reset value and keeps memory (R241). The run enable, the
parameters and the count of polls stay (log 10). -/
def State.enterReset (s : State) : State :=
  { s with
    regs := Vector.replicate 8 0
    pc := 0
    stack := []
    run := .running
    faultRec := FaultRecord.clear
    output := []
    inReset := true }

end Sys2Proof.Machine
end

