-- ==== Sys2Proof/Machine/Operands.lean ====
section
/-! DEFINITION. Every operand form: what a source operand resolves to (30_encoding.md R74 to R79). The dest
operand is a register number, decoded by `asRegisterIndex` (R77), and is never resolved (R78). -/

namespace Sys2Proof.Machine

/-- The value of a decoded source operand: the literal unchanged, or the register's current value
(R75, R76). -/
def State.value (s : State) : Source → Value
  | .lit v => v
  | .reg r => s.reg r

/-- `resolve(raw)`; `none` where it raises `InvalidOperand` (R75). -/
def State.resolve (s : State) (raw : Word) : Option Value := (sourceOf raw).map s.value

/-- `zext_16`: a 15-bit value as a cell, a stack entry or a target (00_scope.md R11). -/
def zext16 (v : Value) : Word := v.setWidth 16

/-- A source operand as 16 bits: what `push` pushes, `wmem` stores and a transfer takes for its target
(41 R131, 44 R181, 43 R161). -/
def State.word (s : State) (a : Source) : Word := zext16 (s.value a)

/-- A source operand as a word address (20_memory.md R53). -/
def State.address (s : State) (a : Source) : Nat := (s.value a).toNat

end Sys2Proof.Machine
end

