-- ==== Sys2Proof/Machine/Flags.lean ====
section
/-! DEFINITION. The hardware has no flag, condition code or predicate register (10_state.md R35, 42_alu.md
R150). What stands in their place: the 0 or 1 that a comparison writes, and the test of a condition
operand. -/

namespace Sys2Proof.Machine

/-- The value a comparison writes: exactly 0 or 1 (42_alu.md R142, R143). -/
def truthValue (b : Bool) : Value := if b then 1 else 0

/-- A condition operand is not zero (43_control_flow.md R163, R164). -/
def State.holds (s : State) (cond : Source) : Bool := decide (s.value cond ≠ 0)

end Sys2Proof.Machine
end

