-- ==== Sys2Proof/Machine/Alu.lean ====
section
/-! DEFINITION. `eq`, `gt`, `add`, `mult`, `mod`, `and`, `or`, `not` (spec/42_alu.md). Values are 15 bits wide
and unsigned, and the arithmetic of their type is arithmetic modulo 32768 (R140, R141). -/

namespace Sys2Proof.Machine

/-- The shape of the family: the result goes to the dest register and the pc past the instruction's `n`
cells, nothing else (R150). -/
def State.result (s : State) (d : RegIndex) (v : Value) (n : Nat) : State := (s.setReg d v).advance n

/-- `eq dest, a, b` (R142). -/
def execEq (d : RegIndex) (a b : Source) (s : State) : Host.Outcome State Fault Refusal :=
  .next (s.result d (truthValue (decide (s.value a = s.value b))) 4)

/-- `gt dest, a, b`, unsigned (R141, R143). -/
def execGt (d : RegIndex) (a b : Source) (s : State) : Host.Outcome State Fault Refusal :=
  .next (s.result d (truthValue (decide ((s.value b).toNat < (s.value a).toNat))) 4)

/-- `add dest, a, b`: modulo 32768 (R144). -/
def execAdd (d : RegIndex) (a b : Source) (s : State) : Host.Outcome State Fault Refusal :=
  .next (s.result d (s.value a + s.value b) 4)

/-- `mult dest, a, b`: the exact product modulo 32768 (R145). -/
def execMult (d : RegIndex) (a b : Source) (s : State) : Host.Outcome State Fault Refusal :=
  .next (s.result d (s.value a * s.value b) 4)

/-- `mod dest, a, b`: the unsigned remainder; `b = 0` raises `DivideByZero` (R146). -/
def execMod (d : RegIndex) (a b : Source) (s : State) : Host.Outcome State Fault Refusal :=
  if s.value b = 0 then .next (s.takeExecFault (.mod d a b) .divideByZero)
  else .next (s.result d (s.value a % s.value b) 4)

/-- `and dest, a, b` (R147). -/
def execAnd (d : RegIndex) (a b : Source) (s : State) : Host.Outcome State Fault Refusal :=
  .next (s.result d (s.value a &&& s.value b) 4)

/-- `or dest, a, b` (R148). -/
def execOr (d : RegIndex) (a b : Source) (s : State) : Host.Outcome State Fault Refusal :=
  .next (s.result d (s.value a ||| s.value b) 4)

/-- `not dest, a`: the 15-bit complement (R149). -/
def execNot (d : RegIndex) (a : Source) (s : State) : Host.Outcome State Fault Refusal :=
  .next (s.result d (~~~ s.value a) 3)

end Sys2Proof.Machine
end

