-- ==== Sys2Proof/Machine/ControlFlow.lean ====
section
/-! DEFINITION. `halt`, `jmp`, `jt`, `jf`, `call`, `ret`, `noop` (spec/43_control_flow.md). A target is an
absolute word address and is not checked when the transfer executes (R161). -/

namespace Sys2Proof.Machine

/-- `halt`: `run <- HALTED`, the pc just past it (R160). -/
def execHalt (s : State) : Host.Outcome State Fault Refusal :=
  .next (s.halt.advance 1)

/-- `jmp target` (R162). -/
def execJmp (t : Source) (s : State) : Host.Outcome State Fault Refusal :=
  .next (s.goto (s.word t))

/-- `jt cond, target` (R163). -/
def execJt (c t : Source) (s : State) : Host.Outcome State Fault Refusal :=
  .next (if s.holds c then s.goto (s.word t) else s.advance 3)

/-- `jf cond, target` (R164). -/
def execJf (c t : Source) (s : State) : Host.Outcome State Fault Refusal :=
  .next (if s.holds c then s.advance 3 else s.goto (s.word t))

/-- `call target`: push the address just past the call, then jump; a full stack raises `StackOverflow`
(R165, R166). -/
def execCall (t : Source) (s : State) : Host.Outcome State Fault Refusal :=
  if s.stackFull then .next (s.takeExecFault (.call t) .stackOverflow)
  else .next ((s.push (s.nextPc 2)).goto (s.word t))

/-- `ret`: the pc takes all 16 bits of the top entry; an empty stack raises `StackUnderflow` (R167). -/
def execRet (s : State) : Host.Outcome State Fault Refusal :=
  match s.top? with
  | none => .next (s.takeExecFault .ret .stackUnderflow)
  | some w => .next (s.dropTop.goto w)

/-- `noop` (R168). -/
def execNoop (s : State) : Host.Outcome State Fault Refusal :=
  .next (s.advance 1)

end Sys2Proof.Machine
end

