-- ==== Sys2Proof/Machine/Io.lean ====
section
/-! DEFINITION. `out`, `in` (spec/45_io.md). -/

namespace Sys2Proof.Machine

/-- `out val`: the 15-bit value, unchanged, joins the trace; it never waits and never fails (R190, R191). -/
def execOut (a : Source) (s : State) : Host.Outcome State Fault Refusal :=
  .next ((s.emit (s.value a)).advance 2)

/-- `in dest`: one poll, never blocking; with no character the register keeps its value and the
instruction still retires (R195, R196; log 6). -/
def execInput (d : RegIndex) (s : State) : Host.Outcome State Fault Refusal :=
  .next ((s.receive d s.pollAnswer).advance 2)

end Sys2Proof.Machine
end

