-- ==== Sys2Proof/Machine/MemoryAccess.lean ====
section
/-! DEFINITION. `rmem`, `wmem` (spec/44_memory_access.md). -/

namespace Sys2Proof.Machine

/-- `rmem dest, addr`: the raw cell, its low 15 bits stored; an address at or past MEM_WORDS raises
`OutOfBoundsMemoryAccess` with access 2 (R180). -/
def execRmem (d : RegIndex) (a : Source) (s : State) : Host.Outcome State Fault Refusal :=
  if s.inBounds (s.address a) then .next ((s.setRegWord d (s.cell (s.address a))).advance 3)
  else .next (s.takeBoundsFault (.rmem d a) .read (s.word a))

/-- `wmem addr, src`: the cell takes the value with bit 15 zero; an address at or past MEM_WORDS raises
`OutOfBoundsMemoryAccess` with access 3 (R181). -/
def execWmem (a v : Source) (s : State) : Host.Outcome State Fault Refusal :=
  if s.inBounds (s.address a) then .next ((s.setCell (s.address a) (s.word v)).advance 3)
  else .next (s.takeBoundsFault (.wmem a v) .write (s.word a))

end Sys2Proof.Machine
end

