-- ==== Sys2Proof/Machine/Move.lean ====
section
/-! DEFINITION. `set`, `push`, `pop` (spec/41_move_and_stack.md). -/

namespace Sys2Proof.Machine

/-- `set dest, src` (R130). -/
def execSet (d : RegIndex) (a : Source) (s : State) : Host.Outcome State Fault Refusal :=
  .next ((s.setReg d (s.value a)).advance 3)

/-- `push src`: the resolved value, as 16 bits; a full stack raises `StackOverflow` (R131). -/
def execPush (a : Source) (s : State) : Host.Outcome State Fault Refusal :=
  if s.stackFull then .next (s.takeExecFault (.push a) .stackOverflow)
  else .next ((s.push (s.word a)).advance 2)

/-- `pop dest`: the low 15 bits of the top entry; an empty stack raises `StackUnderflow` (R132). -/
def execPop (d : RegIndex) (s : State) : Host.Outcome State Fault Refusal :=
  match s.top? with
  | none => .next (s.takeExecFault (.pop d) .stackUnderflow)
  | some w => .next ((s.dropTop.setRegWord d w).advance 2)

end Sys2Proof.Machine
end

