-- ==== Sys2Proof/Machine/Fetch.lean ====
section
/-! DEFINITION. The fetch unit (spec/40_fetch_dispatch.md R100 to R105): the cells of the instruction at the
pc, when the block makes a step at all, and how an instruction is placed at the pc. -/

namespace Sys2Proof.Machine

/-- At most `n` cells from word address `k` on, ending where memory ends (R102). -/
def State.cellsFrom (s : State) : Nat → Nat → List Word
  | 0, _ => []
  | n + 1, k => if s.inBounds k then s.cell k :: s.cellsFrom n (k + 1) else []

/-- The cells the fetch unit can reach from the pc: no instruction is longer (R101, 30_encoding.md R70). -/
def State.cellsAtPc (s : State) : List Word := s.cellsFrom Config.longest s.pc.toNat

/-- Fetch and decode the instruction at the pc (R100 steps 1 and 2). -/
def State.fetchDecode (s : State) : Decoded := decode s.cellsAtPc

/-- Why the block makes no step, if it makes none (R105; 60_exceptions.md R222; log 8). -/
def State.noStep? (s : State) : Option Fault :=
  if s.inReset then some .inReset
  else
    match s.run with
    | .halted => some .halted
    | .faulted => some .faulted
    | .running => if s.runEnable then none else some .paused

/-- Store cells from word address `k` on, leaving out those that no load could place (70_reset_and_hazards.md
R244). -/
def State.storeCells (s : State) : Nat → List Word → State
  | _, [] => s
  | k, w :: ws => if k < Config.memLimit then (s.setCell k w).storeCells (k + 1) ws else s

/-- Place the cells of one instruction at the pc and let the block step: memory is made long enough to
hold them, as the load of an image with them would (log 3, log 18). -/
def State.placeAtPc (s : State) (cells : List Word) : State :=
  { s.storeCells s.pc.toNat cells with
    memWords := max s.memWords (min Config.memLimit (s.pc.toNat + cells.length))
    run := .running
    runEnable := true
    inReset := false }

end Sys2Proof.Machine
end

