-- ==== Sys2Proof/Machine/Step.lean ====
section
/-! DEFINITION. One step: it retires one instruction or takes one fault (spec/40_fetch_dispatch.md R100). -/

namespace Sys2Proof.Machine

/-- The step. Where the block makes none it answers why (R105). A fault of fetch or decode is taken
(60_exceptions.md R205); otherwise the decoded instruction is executed. -/
def step (s : State) : Host.Outcome State Fault Refusal :=
  match s.noStep? with
  | some why => .fault why
  | none =>
    match s.fetchDecode with
    | .failed why => .next (s.takeDecodeFault why)
    | .instr i _ => exec i s

/-- `s` with the instruction of bits `w` placed at the pc, so that the next step runs it (log 3, log 18). -/
def State.withFetchWord (s : State) (nbits w : Nat) : State := s.placeAtPc (tableCells nbits w)

end Sys2Proof.Machine
end

