-- ==== Sys2Proof/Machine/Assembler.lean ====
section
/-! DEFINITION. The spec's assembler notation (30_encoding.md R88, R89), from abstract lines to the cells of
an image. The notation is the spec's own (D16) and no step depends on it. -/

namespace Sys2Proof.Machine

/-- How many cells a line makes: an instruction its opcode and operands, `.word` one, a label none
(R73, R88). -/
def asmSize : AsmItem → Nat
  | .instr _ os => 1 + os.length
  | .word _ => 1
  | .label _ => 0

/-- The labels of the lines from address `k` on: each stands for the address of the next cell (R88). -/
def asmLabels : Nat → List AsmItem → List (String × Nat)
  | _, [] => []
  | k, .label name :: rest => (name, k) :: asmLabels k rest
  | k, item :: rest => asmLabels (k + asmSize item) rest

/-- The address a label stands for; `none` where the name is not there exactly once (log 15). -/
def asmAddress (labels : List (String × Nat)) (name : String) : Option Nat :=
  match labels.filter (fun p => p.1 == name) with
  | [(_, k)] => some k
  | _ => none

/-- The cell of an operand: a register is `32768 + i`, a literal itself, a label its address, which must
be a literal's (R88, R89). -/
def asmOperandCell (labels : List (String × Nat)) : AsmOperand → Option Word
  | .reg i => some (BitVec.ofNat 16 (32768 + i))
  | .lit n => some (BitVec.ofNat 16 n)
  | .label name =>
    match asmAddress labels name with
    | none => none
    | some k => if k ≤ 32767 then some (BitVec.ofNat 16 k) else none

/-- The cells of a line; `none` where the assembler refuses it (R89). -/
def asmItemCells (labels : List (String × Nat)) (item : AsmItem) : Option (List Word) :=
  if item.wellFormed then
    match item with
    | .instr op os => (os.mapM (asmOperandCell labels)).map (BitVec.ofNat 16 op.row :: ·)
    | .word v => some [BitVec.ofNat 16 v]
    | .label _ => some []
  else none

/-- Assemble lines into an image, the first cell at address 0 (R88). -/
def assemble (items : List AsmItem) : Option (List Word) :=
  (items.mapM (asmItemCells (asmLabels 0 items))).map List.flatten

end Sys2Proof.Machine
end

