-- ==== Sys2Proof/Machine/HostPort.lean ====
section
/-! DEFINITION. The host interface (spec/60_exceptions.md R215 to R229, spec/70_reset_and_hazards.md R241 to
R246): reset, load, run enable, status, save, restore. -/

namespace Sys2Proof.Machine

/-! ## Status (R33, R200, R208, R221) -/

/-- `run` as the host reads it, 2 bits (10_state.md R33). -/
def RunState.code : RunState → BitVec 2
  | .running => 0
  | .halted => 1
  | .faulted => 2

/-- The fault code, 3 bits (R200). -/
def FaultKind.code : FaultKind → BitVec 3
  | .none => 0
  | .invalidOperand => 1
  | .invalidDestination => 2
  | .unknownOpcode => 3
  | .stackUnderflow => 4
  | .divideByZero => 5
  | .outOfBounds => 6
  | .stackOverflow => 7

/-- `fault_access`, 2 bits (10_state.md R34). -/
def AccessKind.code : AccessKind → BitVec 2
  | .none => 0
  | .fetch => 1
  | .read => 2
  | .write => 3

/-- What the host reads between steps: the status register and every field of the record (R221). -/
structure Status where
  run : BitVec 2
  faultKind : BitVec 3
  faultPc : Word
  faultOpcode : Word
  faultNops : BitVec 2
  faultOperand0 : Word
  faultOperand1 : Word
  faultOperand2 : Word
  faultAddr : Word
  faultAccess : BitVec 2
  deriving DecidableEq, Repr

/-- Read the status register and the record; the state is no part of the answer, so it cannot change
(R221). -/
def State.status (s : State) : Status where
  run := s.run.code
  faultKind := s.faultRec.kind.code
  faultPc := s.faultRec.pc
  faultOpcode := s.faultRec.opcode
  faultNops := s.faultRec.nops
  faultOperand0 := s.faultRec.operand0
  faultOperand1 := s.faultRec.operand1
  faultOperand2 := s.faultRec.operand2
  faultAddr := s.faultRec.addr
  faultAccess := s.faultRec.access.code

/-- The outcome of a run (R208). -/
inductive RunOutcome
  | notEnded
  | halted
  | faulted (code : BitVec 3)
  deriving DecidableEq, Repr

/-- The outcome as `run` and `fault_kind` tell it (R208). -/
def State.runOutcome (s : State) : RunOutcome :=
  match s.run with
  | .running => .notEnded
  | .halted => .halted
  | .faulted => .faulted s.faultRec.kind.code

/-! ## Snapshot (R224 to R228) -/

/-- A snapshot as the host holds it: registers, stack bottom to top, pc. The numbers are unbounded so that
an ill-formed snapshot can be offered (R224, R227). -/
structure Snapshot where
  registers : List Nat
  stack : List Nat
  pc : Nat
  deriving DecidableEq, Repr

/-- The block is in no step and is about to make none: in reset, paused, `HALTED` or `FAULTED`
(R224, R226, 70_reset_and_hazards.md R246; log 9). -/
def State.quiet (s : State) : Bool := s.inReset || !s.runEnable || decide (s.run ≠ .running)

/-- The snapshot of a state (R224). -/
def State.snapshot (s : State) : Snapshot where
  registers := s.regs.toList.map (·.toNat)
  stack := s.stack.map (·.toNat)
  pc := s.pc.toNat

/-- `save()`; `none` where the host may not ask (R220, R224). -/
def State.save (s : State) : Option Snapshot := if s.quiet then some s.snapshot else none

/-- The stack has room for `n` entries (R227, D5). -/
def State.stackFits (s : State) (n : Nat) : Bool :=
  match s.stackDepth with
  | none => true
  | some depth => decide (n ≤ depth)

/-- The snapshot is one the state can hold (R227, D14). -/
def State.canRestore (s : State) (p : Snapshot) : Bool :=
  decide (p.registers.length = 8) && p.registers.all (fun v => decide (v ≤ 32767)) &&
    p.stack.all (fun v => decide (v ≤ 65535)) && decide (p.pc ≤ 65535) && s.stackFits p.stack.length

/-- The overwriting that a restore does: registers, stack and pc, nothing else (R226). -/
def State.overwrite (s : State) (p : Snapshot) : State :=
  { s with
    regs := Vector.ofFn fun i => BitVec.ofNat 15 (p.registers.getD i.val 0)
    stack := p.stack.map (BitVec.ofNat 16)
    pc := BitVec.ofNat 16 p.pc }

/-! ## Image (70_reset_and_hazards.md R244, 20_memory.md R57) -/

/-- The cells of a byte stream, little-endian; `none` for an odd number of bytes (R57; log 16). The
conversion is the loader's, outside the block. -/
def imageOfBytes : List Byte → Option (List Word)
  | [] => some []
  | lo :: hi :: bs => (imageOfBytes bs).map ((hi ++ lo) :: ·)
  | [_] => none

/-- Memory after a load: the image and nothing else, MEM_WORDS its length (R244). -/
def State.withImage (s : State) (image : List Word) : State :=
  { s with mem := Memory.ofImage 0 image, memWords := image.length }

/-! ## The host's moves (R215, R220) -/

/-- What the host can do that may change the block's state (R215). -/
inductive HostMove
  | assertReset
  | load (image : List Word)
  | releaseReset
  | setRunEnable (on : Bool)
  | restore (p : Snapshot)
  deriving DecidableEq, Repr

/-- What a move comes to: done; failed with the state as it was (R227); or no move at all, since the host
broke a duty or asked for what it cannot have (R220; log 12). -/
inductive HostAnswer
  | done (s : State)
  | failed (s : State)
  | noMove
  deriving DecidableEq, Repr

/-- `load(image)`: only while reset is asserted, at most 32768 cells (R244, D3, D15; log 12). -/
def State.load (s : State) (image : List Word) : HostAnswer :=
  if s.inReset && decide (image.length ≤ Config.memLimit) then .done (s.withImage image) else .noMove

/-- `restore(p)`: all or nothing (R226, R227). -/
def State.restore (s : State) (p : Snapshot) : HostAnswer :=
  if s.quiet then if s.canRestore p then .done (s.overwrite p) else .failed s else .noMove

/-- One move of the host, between steps (R215). -/
def State.hostMove (s : State) : HostMove → HostAnswer
  | .assertReset => .done s.enterReset
  | .load image => s.load image
  | .releaseReset => .done { s with inReset := false }
  | .setRunEnable on => .done { s with runEnable := on }
  | .restore p => s.restore p

end Sys2Proof.Machine
end

