-- ==== Sys2Proof/Safety.lean ====
section
/-! DEFINITION. The terms claims use: the invariant of the block, what an instruction may write, what it
means that a fault was taken, the fetch loop of 40_fetch_dispatch.md R100 as a relation, and the states that
steps and host moves reach. -/

namespace Sys2Proof.Machine

/-! ## The invariant -/

/-- Every byte listed belongs to a cell that exists (spec/20_memory.md R50, R60). -/
def Memory.below (m : List Host.Cell) (words : Nat) : Bool := m.all fun c => decide (c.1 < 2 * words)

/-- A record as fault entry writes it: a fault named, an access kind exactly for the out-of-bounds fault, an
address only with it, and zeros in the operand slots not used (60_exceptions.md R200, R206). -/
def FaultRecord.wellMade (r : FaultRecord) : Bool :=
  decide (r.kind ≠ .none) &&
    (decide (r.kind = .outOfBounds) == decide (r.access ≠ .none)) &&
    (decide (r.access ≠ .none) || decide (r.addr = 0)) &&
    (decide (0 < r.nops.toNat) || decide (r.operand0 = 0)) &&
    (decide (1 < r.nops.toNat) || decide (r.operand1 = 0)) &&
    (decide (2 < r.nops.toNat) || decide (r.operand2 = 0))

/-- THE INVARIANT. Memory is canonical, holds no byte outside its cells and has at most 32768 cells
(00_scope.md R9); the stack is within STACK_DEPTH (10_state.md R30); the record is well made in `FAULTED`
and clear in every other run state (10_state.md R34). -/
def State.Inv (s : State) : Prop :=
  Memory.wf s.mem = true ∧ Memory.below s.mem s.memWords = true ∧ s.memWords ≤ Config.memLimit ∧
    s.stackFits s.stack.length = true ∧
    (s.run = .faulted → s.faultRec.wellMade = true) ∧
    (s.run ≠ .faulted → s.faultRec = FaultRecord.clear)

/-! ## What an instruction may write (40_fetch_dispatch.md R108) -/

/-- The state an instruction may write, besides the pc. -/
structure Footprint where
  reg : Option RegIndex := none
  cell : Option Nat := none
  stack : Bool := false
  run : Bool := false
  output : Bool := false
  input : Bool := false

/-- The table of R108, row by row. The cell of `wmem` is at its resolved address (44_memory_access.md
R181). -/
def footprint (i : Instr) (s : State) : Footprint :=
  match i with
  | .halt => { run := true }
  | .set d _ => { reg := some d }
  | .push _ => { stack := true }
  | .pop d => { reg := some d, stack := true }
  | .eq d _ _ => { reg := some d }
  | .gt d _ _ => { reg := some d }
  | .jmp _ => {}
  | .jt _ _ => {}
  | .jf _ _ => {}
  | .add d _ _ => { reg := some d }
  | .mult d _ _ => { reg := some d }
  | .mod d _ _ => { reg := some d }
  | .and d _ _ => { reg := some d }
  | .or d _ _ => { reg := some d }
  | .not d _ => { reg := some d }
  | .rmem d _ => { reg := some d }
  | .wmem a _ => { cell := some (s.address a) }
  | .call _ => { stack := true }
  | .ret => { stack := true }
  | .out _ => { output := true }
  | .input d => { reg := some d, input := true }
  | .noop => {}

/-- The byte address belongs to no cell that `f` lets be written. -/
def Footprint.sparesByte (f : Footprint) (a : Nat) : Prop :=
  ∀ k, f.cell = some k → a ≠ 2 * k ∧ a ≠ 2 * k + 1

/-- Between `s` and `t` nothing outside `f` and the pc has changed: no register, no byte of memory, no
stack, run state, output, input, and never the record, the parameters or the host's lines. -/
def KeepsOutside (f : Footprint) (s t : State) : Prop :=
  (∀ r, f.reg ≠ some r → t.reg r = s.reg r) ∧
  (∀ a, f.sparesByte a → Memory.readByte t.mem a = Memory.readByte s.mem a) ∧
  (f.stack = false → t.stack = s.stack) ∧
  (f.run = false → t.run = s.run) ∧
  (f.output = false → t.output = s.output) ∧
  (f.input = false → t.polls = s.polls) ∧
  t.faultRec = s.faultRec ∧ t.memWords = s.memWords ∧ t.stackDepth = s.stackDepth ∧
  t.runEnable = s.runEnable ∧ t.inReset = s.inReset

/-- `i` retires: from `s` it gives `t`, with the pc at `target` and nothing written outside the footprint
of `i` (40_fetch_dispatch.md R108, R109). -/
def RetiresTo (i : Instr) (s t : State) (target : Word) : Prop :=
  exec i s = .next t ∧ t.pc = target ∧ KeepsOutside (footprint i s) s t

/-- The values the pc may take when the instruction retires, the pc column of R108. -/
def pcColumn (i : Instr) (s : State) : List Word :=
  match i with
  | .jmp t => [s.word t]
  | .jt _ t => [s.word t, s.pc + 3]
  | .jf _ t => [s.word t, s.pc + 3]
  | .call t => [s.word t]
  | .ret => s.stack.getLast?.toList
  | .halt => [s.pc + 1]
  | .noop => [s.pc + 1]
  | .push _ => [s.pc + 2]
  | .pop _ => [s.pc + 2]
  | .out _ => [s.pc + 2]
  | .input _ => [s.pc + 2]
  | .set _ _ => [s.pc + 3]
  | .not _ _ => [s.pc + 3]
  | .rmem _ _ => [s.pc + 3]
  | .wmem _ _ => [s.pc + 3]
  | .eq _ _ _ => [s.pc + 4]
  | .gt _ _ _ => [s.pc + 4]
  | .add _ _ _ => [s.pc + 4]
  | .mult _ _ _ => [s.pc + 4]
  | .mod _ _ _ => [s.pc + 4]
  | .and _ _ _ => [s.pc + 4]
  | .or _ _ _ => [s.pc + 4]

/-- The faults an instruction can raise in execute (40_fetch_dispatch.md R110). -/
def executeFaults : Instr → List FaultKind
  | .mod _ _ _ => [.divideByZero]
  | .pop _ => [.stackUnderflow]
  | .ret => [.stackUnderflow]
  | .push _ => [.stackOverflow]
  | .call _ => [.stackOverflow]
  | .rmem _ _ => [.outOfBounds]
  | .wmem _ _ => [.outOfBounds]
  | .halt => []
  | .set _ _ => []
  | .eq _ _ _ => []
  | .gt _ _ _ => []
  | .jmp _ => []
  | .jt _ _ => []
  | .jf _ _ => []
  | .add _ _ _ => []
  | .mult _ _ _ => []
  | .and _ _ _ => []
  | .or _ _ _ => []
  | .not _ _ => []
  | .out _ => []
  | .input _ => []
  | .noop => []

/-! ## Faults taken (60_exceptions.md R205, R206) -/

/-- `t` is `s` with the fault taken: run `FAULTED`, the record written, all else as it was. -/
def FaultTaken (s t : State) (kind : FaultKind) (opcode : Word) (operands : List Word)
    (access : AccessKind) (addr : Word) : Prop :=
  t = { s with run := .faulted, faultRec := t.faultRec } ∧
  t.faultRec.kind = kind ∧ t.faultRec.pc = s.pc ∧ t.faultRec.opcode = opcode ∧
  t.faultRec.nops.toNat = operands.length ∧
  [t.faultRec.operand0, t.faultRec.operand1, t.faultRec.operand2] =
    operands ++ List.replicate (3 - operands.length) 0 ∧
  t.faultRec.addr = addr ∧ t.faultRec.access = access

/-- The raw operand cells at the pc, `n` of them from the first. -/
def State.rawOperands (s : State) (n : Nat) : List Word :=
  (List.range n).map fun j => s.cell (s.pc.toNat + 1 + j)

/-- The first `n` operand cells of an instruction of these kinds exist and are valid
(40_fetch_dispatch.md R104). -/
def State.operandsGood (s : State) (kinds : List OperandKind) (n : Nat) : Prop :=
  n ≤ kinds.length ∧ s.pc.toNat + n < s.memWords ∧ operandCellsOk (kinds.take n) (s.rawOperands n) = true

/-- The fault a bad operand cell of this kind raises (30_encoding.md R75, R77). -/
def kindFault : OperandKind → FaultKind
  | .dest => .invalidDestination
  | .source => .invalidOperand

/-- The step of R100, case by case in the order of R202, as the spec writes it: cells read one at a time by
the fetch counter, checked against the table of R82. `o` is what the step answers. -/
inductive StepByR100 (s : State) (o : Host.Outcome State Fault Refusal) : Prop
  | opcodeOutOfBounds (t : State) (ho : o = .next t) (h : s.memWords ≤ s.pc.toNat)
      (ht : FaultTaken s t .outOfBounds 0 [] .fetch s.pc)
  | unknownOpcode (t : State) (ho : o = .next t) (h : s.pc.toNat < s.memWords)
      (hk : operandKinds (s.cell s.pc.toNat).toNat = none)
      (ht : FaultTaken s t .unknownOpcode (s.cell s.pc.toNat) [] .none 0)
  | operandOutOfBounds (t : State) (kinds : List OperandKind) (n : Nat) (ho : o = .next t)
      (hk : operandKinds (s.cell s.pc.toNat).toNat = some kinds) (hn : n < kinds.length)
      (hg : s.operandsGood kinds n) (h : s.memWords ≤ s.pc.toNat + 1 + n)
      (ht : FaultTaken s t .outOfBounds (s.cell s.pc.toNat) (s.rawOperands n) .fetch
        (BitVec.ofNat 16 (s.pc.toNat + 1 + n)))
  | operandInvalid (t : State) (kinds : List OperandKind) (n : Nat) (k : OperandKind) (ho : o = .next t)
      (hk : operandKinds (s.cell s.pc.toNat).toNat = some kinds) (hn : kinds[n]? = some k)
      (hg : s.operandsGood kinds n) (h : s.pc.toNat + 1 + n < s.memWords)
      (hbad : operandCellOk k (s.cell (s.pc.toNat + 1 + n)) = false)
      (ht : FaultTaken s t (kindFault k) (s.cell s.pc.toNat) (s.rawOperands (n + 1)) .none 0)
  | executed (i : Instr) (kinds : List OperandKind)
      (hk : operandKinds (s.cell s.pc.toNat).toNat = some kinds) (hg : s.operandsGood kinds kinds.length)
      (hi : encode i = s.cell s.pc.toNat :: s.rawOperands kinds.length) (ho : o = exec i s)

/-! ## Stepping, reset and reachable states -/

/-- The block makes steps: running, enabled, out of reset (40_fetch_dispatch.md R105). -/
abbrev State.Stepping (s : State) : Prop := s.run = .running ∧ s.runEnable = true ∧ s.inReset = false

/-- The stack has room for one more entry (10_state.md R30). -/
def State.HasRoom (s : State) : Prop := ∀ n, s.stackDepth = some n → s.stack.length < n

/-- The stack is bounded and holds its number of entries (10_state.md R30). -/
def State.IsFull (s : State) : Prop := ∃ n, s.stackDepth = some n ∧ n ≤ s.stack.length

/-- `t` holds, item by item, what 70_reset_and_hazards.md R240 says reset leaves, memory as in `s`. -/
def ResetLeaves (s t : State) : Prop :=
  (∀ r, t.reg r = 0) ∧ t.pc = 0 ∧ t.stack = [] ∧ t.run = .running ∧
  t.status = ⟨0, 0, 0, 0, 0, 0, 0, 0, 0, 0⟩ ∧
  t.mem = s.mem ∧ t.memWords = s.memWords ∧ t.output = []

/-- The states of a block of any STACK_DEPTH that steps and host moves reach from reset. The host may load
any image, so this is no single run. -/
inductive Reachable : State → Prop
  | start (depth : Option Nat) : Reachable { State.reset with stackDepth := depth }
  | step {s t : State} (hs : Reachable s) (h : step s = .next t) : Reachable t
  | move {s t : State} (m : HostMove) (hs : Reachable s) (h : s.hostMove m = .done t) : Reachable t

/-! ## Short runs of instructions, for the stack laws -/

/-- Execute instructions one after another, each answering a next state. -/
def execAll : List Instr → State → Option State
  | [], s => some s
  | i :: is, s =>
    match exec i s with
    | .next t => execAll is t
    | _ => none

/-- Pop `n` times into `d`: the values popped, in order, and the last state. -/
def popInto (d : RegIndex) : Nat → State → Option (List Value × State)
  | 0, s => some ([], s)
  | n + 1, s =>
    match exec (.pop d) s with
    | .next t => (popInto d n t).map fun p => (t.reg d :: p.1, p.2)
    | _ => none

end Sys2Proof.Machine
end

