-- ==== Sys2Proof/Certificates/Slice0/Obligations.lean ====
section
/-! DEFINITION. The statements for the provers. In each docstring: the rule of spec/ it formalises, and where a
clause rests on a decision or an inference that the spec marks as its own, or on an entry of the log. -/

open Sys2Proof Sys2Proof.Machine

/-! ## Fetch, decode, step -/

/-- When the cells at the pc decode to `i`, a block that makes steps executes `i`, and the step adds nothing
around it (40_fetch_dispatch.md R100; that the block must be stepping is R105). -/
def Obligations.StepRunsTheDecodedInstruction : Prop :=
  ∀ (s : State) (i : Instr) (rest : List Word), s.Stepping →
    decode s.cellsAtPc = .instr i rest → step s = exec i s

/-- Sequences of cells that the spec spells out decode as it reads them: 30_encoding.md R84's image and the
rows V-ENC-1 to V-ENC-10 of 95_test_vectors.md. -/
def Obligations.SpelledOutCellsDecodeAsTheSpecReadsThem : Prop :=
  decode [9, 32768, 32769, 4, 19, 32768, 0] = .instr (.add 0 (.reg 1) (.lit 4)) [19, 32768, 0] ∧
  decode [19, 32768, 0] = .instr (.out (.reg 0)) [0] ∧
  decode [0] = .instr .halt [] ∧
  decode [1, 32770, 1234] = .instr (.set 2 (.lit 1234)) [] ∧
  decode [2, 32775] = .instr (.push (.reg 7)) [] ∧
  decode [4, 32768, 32769, 5] = .instr (.eq 0 (.reg 1) (.lit 5)) [] ∧
  decode [7, 32768, 3] = .instr (.jt (.reg 0) (.lit 3)) [] ∧
  decode [16, 7, 32769] = .instr (.wmem (.lit 7) (.reg 1)) [] ∧
  decode [17, 8] = .instr (.call (.lit 8)) [] ∧
  decode [20, 32771] = .instr (.input 3) [] ∧
  decode [21] = .instr .noop [] ∧
  decode [32768] = .failed (.unknownOpcode 32768)

/-- Decoding the encoding of an instruction gives that instruction, every operand at every value, and leaves
the cells after it (30_encoding.md; no bit of an encoding is dropped). -/
def Obligations.DecodeOfEncodeIsTheInstruction : Prop :=
  ∀ (i : Instr) (rest : List Word), decode (encode i ++ rest) = .instr i rest

/-- What decodes to `i` is the encoding of `i` and nothing else: no cell of an instruction is ignored, and no
two sequences of cells are one instruction (30_encoding.md R86 and R87, both derived by the spec). -/
def Obligations.DecodedCellsAreTheEncoding : Prop :=
  ∀ (cells : List Word) (i : Instr) (rest : List Word),
    decode cells = .instr i rest → cells = encode i ++ rest

/-- The well-formed sequences of cells, by the table of operand kinds of R82, are exactly the encodings of
instructions (30_encoding.md R85, R86). -/
def Obligations.WellFormedCellsAreExactlyTheEncodings : Prop :=
  ∀ cells : List Word, cellsWellFormed cells = true ↔ ∃ i, cells = encode i

/-- R75: a source cell below 32768 resolves to itself, 32768 to 32775 to the current value of the register, and
32776 or more resolves to nothing. -/
def Obligations.SourceCellsResolveByTheirRange : Prop :=
  ∀ (s : State) (raw : Word),
    (raw.toNat < 32768 → ∃ v, s.resolve raw = some v ∧ v.toNat = raw.toNat) ∧
    (∀ r : RegIndex, raw.toNat = 32768 + r.val → s.resolve raw = some (s.reg r)) ∧
    (32776 ≤ raw.toNat → s.resolve raw = none)

/-- R77: a dest cell of 32768 to 32775 names register `raw - 32768`; every other cell names none. -/
def Obligations.DestinationCellsNameARegister : Prop :=
  ∀ raw : Word,
    (∀ r : RegIndex, raw.toNat = 32768 + r.val → asRegisterIndex raw = some r) ∧
    (raw.toNat < 32768 ∨ 32776 ≤ raw.toNat → asRegisterIndex raw = none)

/-- The assembler accepts an instruction line exactly where its cells decode (30_encoding.md R89, derived by the
spec). The line has no label, and each operand is a number whose cell is 16 bits wide. Literals 32768 to 32775
are left out: R89 refuses them, yet their cells are register references and would not fault (log 15). -/
def Obligations.AssemblerAcceptsExactlyTheDecodableLines : Prop :=
  ∀ (op : Opcode) (os : List AsmOperand) (cells : List Word),
    (∀ o ∈ os, (∃ i, o = .reg i ∧ i < 32768) ∨ (∃ n, o = .lit n ∧ n < 32768) ∨
      (∃ n, o = .lit n ∧ 32776 ≤ n ∧ n < 65536)) →
    os.mapM (asmOperandCell []) = some cells →
    ((AsmItem.instr op os).wellFormed = true ↔
      ∃ i, decode (BitVec.ofNat 16 op.row :: cells) = .instr i [])

/-- A fetch at or past MEM_WORDS, of the opcode cell or of an operand cell, faults with the fetch access and
its address (40_fetch_dispatch.md R102, the spec's decision D4; record layout D8). -/
def Obligations.FetchPastMemoryFaults : Prop :=
  ∀ s : State, s.Stepping →
    (s.memWords ≤ s.pc.toNat →
      ∃ t, step s = .next t ∧ FaultTaken s t .outOfBounds 0 [] .fetch s.pc) ∧
    (∀ kinds n, operandKinds (s.cell s.pc.toNat).toNat = some kinds → n < kinds.length →
      s.operandsGood kinds n → s.memWords ≤ s.pc.toNat + 1 + n →
      ∃ t, step s = .next t ∧
        FaultTaken s t .outOfBounds (s.cell s.pc.toNat) (s.rawOperands n) .fetch
          (BitVec.ofNat 16 (s.pc.toNat + 1 + n)))

/-- An opcode cell of 22 or more faults, with no operand cell fetched, whatever follows it
(40_fetch_dispatch.md R103, derived by the spec; record layout D8). -/
def Obligations.UnknownOpcodeFaultsBeforeAnyOperand : Prop :=
  ∀ s : State, s.Stepping → s.pc.toNat < s.memWords → 22 ≤ (s.cell s.pc.toNat).toNat →
    ∃ t, step s = .next t ∧ FaultTaken s t .unknownOpcode (s.cell s.pc.toNat) [] .none 0

/-- The first operand cell that fails decides the fault: `InvalidDestination` in a dest place,
`InvalidOperand` in a source place, with no later cell fetched (40_fetch_dispatch.md R104, derived by the
spec; record layout D8). -/
def Obligations.FirstFailingOperandDecidesTheFault : Prop :=
  ∀ (s : State) (kinds : List OperandKind) (n : Nat) (k : OperandKind), s.Stepping →
    operandKinds (s.cell s.pc.toNat).toNat = some kinds → kinds[n]? = some k →
    s.operandsGood kinds n → s.pc.toNat + 1 + n < s.memWords →
    operandCellOk k (s.cell (s.pc.toNat + 1 + n)) = false →
    ∃ t, step s = .next t ∧
      FaultTaken s t (kindFault k) (s.cell s.pc.toNat) (s.rawOperands (n + 1)) .none 0

/-- Every step is one of the cases of the loop of 40_fetch_dispatch.md R100, in the order of
60_exceptions.md R202, with cells read one at a time from memory and held against the table of R82. -/
def Obligations.StepFollowsTheFetchDecodeLoop : Prop :=
  ∀ s : State, s.Stepping → StepByR100 s (step s)

/-- The block makes a step exactly where it is running, enabled and out of reset, and no step is refused
(40_fetch_dispatch.md R105, 60_exceptions.md R222; the reset line is log 7). -/
def Obligations.StepHappensExactlyWhenRunningAndEnabled : Prop :=
  ∀ s : State, ((∃ t, step s = .next t) ↔ s.Stepping) ∧ (∀ r, step s ≠ .refused r)

/-- A step that ends in `FAULTED` has changed `run` and the record and nothing else; the pc it records and
leaves is that of the faulting instruction (40_fetch_dispatch.md R106, derived by the spec, decision D9). -/
def Obligations.FaultsChangeOnlyRunAndRecord : Prop :=
  ∀ s t : State, step s = .next t → t.run = .faulted →
    t = { s with run := .faulted, faultRec := t.faultRec } ∧ t.faultRec.pc = s.pc ∧
      t.faultRec.kind ≠ .none

/-! ## The instructions -/

/-- Every instruction, in every state, answers a next state: no instruction stops the model
(40_fetch_dispatch.md R107, 60_exceptions.md R205). -/
def Obligations.EveryInstructionAnswersANextState : Prop :=
  ∀ (i : Instr) (s : State), ∃ t, exec i s = .next t

/-- An instruction that retires writes its row of R108 and nothing else, and puts the pc where the row says;
one that does not takes one of the faults R110 gives it (40_fetch_dispatch.md R108, derived by the spec). -/
def Obligations.InstructionsWriteOnlyTheirRow : Prop :=
  ∀ (i : Instr) (s t : State), exec i s = .next t →
    (KeepsOutside (footprint i s) s t ∧ t.pc ∈ pcColumn i s ∧ (i = .halt → t.run = .halted)) ∨
    (∃ kind access addr, kind ∈ executeFaults i ∧
      FaultTaken s t kind (opcodeCell i) (operandCells i) access addr)

/-- R130. -/
def Obligations.SetCopiesItsSource : Prop :=
  ∀ (s : State) (d : RegIndex) (a : Source),
    encode (.set d a) = [1, registerCell d, sourceCell a] ∧
    ∃ t, RetiresTo (.set d a) s t (s.pc + 3) ∧ t.reg d = s.value a

/-- With room on the stack `push` pushes the resolved value as 16 bits; onto a full stack it faults with no
effect (41_move_and_stack.md R131; the overflow is the spec's decision D5). -/
def Obligations.PushPushesTheResolvedValue : Prop :=
  ∀ (s : State) (a : Source),
    encode (.push a) = [2, sourceCell a] ∧
    (s.HasRoom → ∃ t w, RetiresTo (.push a) s t (s.pc + 2) ∧ t.stack = s.stack ++ [w] ∧
      w.toNat = (s.value a).toNat) ∧
    (s.IsFull → ∃ t, exec (.push a) s = .next t ∧
      FaultTaken s t .stackOverflow 2 [sourceCell a] .none 0)

/-- `pop` takes the top entry, its low 15 bits going to the register; on an empty stack it faults with no
effect (41_move_and_stack.md R132; entries of 32768 or more are the spec's decision D6, log 14). -/
def Obligations.PopTakesTheTopEntry : Prop :=
  ∀ (s : State) (d : RegIndex),
    encode (.pop d) = [3, registerCell d] ∧
    (∀ (below : List Word) (w : Word), s.stack = below ++ [w] →
      ∃ t, RetiresTo (.pop d) s t (s.pc + 2) ∧ t.stack = below ∧
        (t.reg d).toNat = w.toNat % 32768) ∧
    (s.stack = [] → ∃ t, exec (.pop d) s = .next t ∧
      FaultTaken s t .stackUnderflow 3 [registerCell d] .none 0)

/-- Any number of values pushed one after another are popped in reverse order, and the stack is then as it
was (41_move_and_stack.md R133, of values in 0..32767 as the spec derives; the premise is room for them). -/
def Obligations.PushedValuesPopInReverse : Prop :=
  ∀ (s : State) (vs : List Value) (d : RegIndex),
    s.stackFits (s.stack.length + vs.length) = true →
    ∃ t u, execAll (vs.map fun v => .push (.lit v)) s = some t ∧
      popInto d vs.length t = some (vs.reverse, u) ∧ u.stack = s.stack

/-- R142 and R143: the result is exactly 0 or 1, the comparison of `gt` unsigned. -/
def Obligations.EqAndGtWriteZeroOrOne : Prop :=
  ∀ (s : State) (d : RegIndex) (a b : Source),
    encode (.eq d a b) = [4, registerCell d, sourceCell a, sourceCell b] ∧
    encode (.gt d a b) = [5, registerCell d, sourceCell a, sourceCell b] ∧
    (∃ t, RetiresTo (.eq d a b) s t (s.pc + 4) ∧
      t.reg d = if (s.value a).toNat = (s.value b).toNat then 1 else 0) ∧
    (∃ t, RetiresTo (.gt d a b) s t (s.pc + 4) ∧
      t.reg d = if (s.value b).toNat < (s.value a).toNat then 1 else 0)

/-- R144 and R145: the exact sum and the exact product, modulo 32768. -/
def Obligations.AddAndMultAreModulo32768 : Prop :=
  ∀ (s : State) (d : RegIndex) (a b : Source),
    encode (.add d a b) = [9, registerCell d, sourceCell a, sourceCell b] ∧
    encode (.mult d a b) = [10, registerCell d, sourceCell a, sourceCell b] ∧
    (∃ t, RetiresTo (.add d a b) s t (s.pc + 4) ∧
      (t.reg d).toNat = ((s.value a).toNat + (s.value b).toNat) % 32768) ∧
    (∃ t, RetiresTo (.mult d a b) s t (s.pc + 4) ∧
      (t.reg d).toNat = ((s.value a).toNat * (s.value b).toNat) % 32768)

/-- `mod` writes the unsigned remainder, and faults with no effect where the divisor is 0 (42_alu.md R146;
the record's layout is the spec's decision D8). -/
def Obligations.ModWritesTheRemainder : Prop :=
  ∀ (s : State) (d : RegIndex) (a b : Source),
    encode (.mod d a b) = [11, registerCell d, sourceCell a, sourceCell b] ∧
    ((s.value b).toNat ≠ 0 → ∃ t, RetiresTo (.mod d a b) s t (s.pc + 4) ∧
      (t.reg d).toNat = (s.value a).toNat % (s.value b).toNat) ∧
    ((s.value b).toNat = 0 → ∃ t, exec (.mod d a b) s = .next t ∧
      FaultTaken s t .divideByZero 11 [registerCell d, sourceCell a, sourceCell b] .none 0)

/-- R147 and R148, bit by bit. -/
def Obligations.AndAndOrAreBitwise : Prop :=
  ∀ (s : State) (d : RegIndex) (a b : Source),
    encode (.and d a b) = [12, registerCell d, sourceCell a, sourceCell b] ∧
    encode (.or d a b) = [13, registerCell d, sourceCell a, sourceCell b] ∧
    (∃ t, RetiresTo (.and d a b) s t (s.pc + 4) ∧
      ∀ n, (t.reg d).toNat.testBit n = ((s.value a).toNat.testBit n && (s.value b).toNat.testBit n)) ∧
    (∃ t, RetiresTo (.or d a b) s t (s.pc + 4) ∧
      ∀ n, (t.reg d).toNat.testBit n = ((s.value a).toNat.testBit n || (s.value b).toNat.testBit n))

/-- R149: the 15-bit complement is `32767 - a`. -/
def Obligations.NotIsTheFifteenBitComplement : Prop :=
  ∀ (s : State) (d : RegIndex) (a : Source),
    encode (.not d a) = [14, registerCell d, sourceCell a] ∧
    ∃ t, RetiresTo (.not d a) s t (s.pc + 3) ∧ (t.reg d).toNat = 32767 - (s.value a).toNat

/-- `halt` enters `HALTED` with the pc just past it, and the block then makes no step (43_control_flow.md
R160; that the pc is `ia + 1` is derived by the spec, the named stop is log 8). -/
def Obligations.HaltStopsPastItself : Prop :=
  ∀ s : State, encode .halt = [0] ∧
    ∃ t, RetiresTo .halt s t (s.pc + 1) ∧ t.run = .halted ∧ ∀ u, step t ≠ .next u

/-- R162. -/
def Obligations.JmpGoesToItsTarget : Prop :=
  ∀ (s : State) (a : Source), encode (.jmp a) = [6, sourceCell a] ∧
    ∃ t target, RetiresTo (.jmp a) s t target ∧ target.toNat = (s.value a).toNat

/-- R163 and R164: the jump is taken exactly where the condition is nonzero, or zero. -/
def Obligations.JtAndJfTestTheirCondition : Prop :=
  ∀ (s : State) (c a : Source),
    encode (.jt c a) = [7, sourceCell c, sourceCell a] ∧
    encode (.jf c a) = [8, sourceCell c, sourceCell a] ∧
    (∃ t target, RetiresTo (.jt c a) s t target ∧
      if (s.value c).toNat ≠ 0 then target.toNat = (s.value a).toNat else target = s.pc + 3) ∧
    (∃ t target, RetiresTo (.jf c a) s t target ∧
      if (s.value c).toNat = 0 then target.toNat = (s.value a).toNat else target = s.pc + 3)

/-- With room on the stack `call` pushes the address just past itself and jumps to the target as it was
before the push; onto a full stack it faults with no effect (43_control_flow.md R165, R166; the overflow is
the spec's decision D5). -/
def Obligations.CallPushesTheReturnAddress : Prop :=
  ∀ (s : State) (a : Source),
    encode (.call a) = [17, sourceCell a] ∧
    (s.HasRoom → ∃ t target, RetiresTo (.call a) s t target ∧ target.toNat = (s.value a).toNat ∧
      t.stack = s.stack ++ [s.pc + 2]) ∧
    (s.IsFull → ∃ t, exec (.call a) s = .next t ∧
      FaultTaken s t .stackOverflow 17 [sourceCell a] .none 0)

/-- `ret` pops all 16 bits into the pc; on an empty stack it faults and does not halt (43_control_flow.md R167;
the record's layout is the spec's decision D8). -/
def Obligations.RetPopsThePc : Prop :=
  ∀ s : State,
    encode .ret = [18] ∧
    (∀ (below : List Word) (w : Word), s.stack = below ++ [w] →
      ∃ t, RetiresTo .ret s t w ∧ t.stack = below) ∧
    (s.stack = [] → ∃ t, exec .ret s = .next t ∧ FaultTaken s t .stackUnderflow 18 [] .none 0)

/-- A `call` and a later `ret` from the same stack come back to the instruction just after the `call`, the
stack as before it, whatever else happened between (43_control_flow.md R169, derived by the spec). -/
def Obligations.RetReturnsJustPastTheCall : Prop :=
  ∀ (s : State) (a : Source), s.HasRoom →
    ∃ t, exec (.call a) s = .next t ∧
      ∀ u : State, u.stack = t.stack →
        ∃ v, exec .ret u = .next v ∧ v.pc = s.pc + 2 ∧ v.stack = s.stack

/-- R168: nothing but the pc changes. -/
def Obligations.NoopOnlyAdvances : Prop :=
  ∀ s : State, encode .noop = [21] ∧ ∃ t, RetiresTo .noop s t (s.pc + 1)

/-- `rmem` stores the low 15 bits of the raw cell; at or past MEM_WORDS it faults with no effect
(44_memory_access.md R180; cells of 32768 or more are the spec's decision D6, log 14). -/
def Obligations.RmemReadsTheRawCell : Prop :=
  ∀ (s : State) (d : RegIndex) (a : Source),
    encode (.rmem d a) = [15, registerCell d, sourceCell a] ∧
    ((s.value a).toNat < s.memWords → ∃ t, RetiresTo (.rmem d a) s t (s.pc + 3) ∧
      (t.reg d).toNat = (s.cell (s.value a).toNat).toNat % 32768) ∧
    (s.memWords ≤ (s.value a).toNat → ∃ t, exec (.rmem d a) s = .next t ∧
      FaultTaken s t .outOfBounds 15 [registerCell d, sourceCell a] .read
        (BitVec.ofNat 16 (s.value a).toNat))

/-- `wmem` stores the value in one cell, which then reads as it where memory is canonical, and no other cell
changes; at or past MEM_WORDS it faults with no effect (44_memory_access.md R181; record layout D8). -/
def Obligations.WmemWritesOneCell : Prop :=
  ∀ (s : State) (a v : Source),
    encode (.wmem a v) = [16, sourceCell a, sourceCell v] ∧
    ((s.value a).toNat < s.memWords → ∃ t, RetiresTo (.wmem a v) s t (s.pc + 3) ∧
      (Memory.wf s.mem = true → (t.cell (s.value a).toNat).toNat = (s.value v).toNat) ∧
      ∀ k, k ≠ (s.value a).toNat → t.cell k = s.cell k) ∧
    (s.memWords ≤ (s.value a).toNat → ∃ t, exec (.wmem a v) s = .next t ∧
      FaultTaken s t .outOfBounds 16 [sourceCell a, sourceCell v] .write
        (BitVec.ofNat 16 (s.value a).toNat))

/-- The 15-bit value joins the output trace unchanged (45_io.md R191). That every `out` is taken and retires in
its own step is the spec's decision D11 (R190) and the model's unbounded trace, log 11. -/
def Obligations.OutEmitsItsValue : Prop :=
  ∀ (s : State) (a : Source), encode (.out a) = [19, sourceCell a] ∧
    ∃ t, RetiresTo (.out a) s t (s.pc + 2) ∧ t.output = s.output ++ [s.value a]

/-- Whatever the oracle answers, its character goes to the register, and with none the register keeps its value;
either way the instruction retires (45_io.md R195; the oracle is the spec's decision D10). That the answer is
`Config.inputAnswer` of the count of polls, which goes up by one, is the model's choice, log 6. -/
def Obligations.InTakesACharacterOrSkips : Prop :=
  ∀ (s : State) (d : RegIndex), encode (.input d) = [20, registerCell d] ∧
    ∃ t, RetiresTo (.input d) s t (s.pc + 2) ∧ t.polls = s.polls + 1 ∧
      t.reg d = match Config.inputAnswer s.polls with
        | some c => c
        | none => s.reg d

/-! ## The whole machine -/

/-- A step changes a byte of memory only by a `wmem`, and only a byte of its cell; no move of the host but the
load, in reset, changes memory (20_memory.md R55; that reset keeps memory and that the load is made in reset are
the spec's decision D15, 70_reset_and_hazards.md R240 and R244; a load outside reset is no move by log 12). -/
def Obligations.OnlyWmemAndTheLoadChangeMemory : Prop :=
  (∀ (s t : State) (a : Nat), step s = .next t →
    Memory.readByte t.mem a ≠ Memory.readByte s.mem a →
    ∃ x v rest, s.fetchDecode = .instr (.wmem x v) rest ∧
      (a = 2 * (s.value x).toNat ∨ a = 2 * (s.value x).toNat + 1)) ∧
  (∀ (s t : State) (m : HostMove), s.hostMove m = .done t → t.mem ≠ s.mem →
    ∃ image, m = .load image ∧ s.inReset = true)

/-- A step changes a register only through the dest operand of one of the twelve instructions that have one
(10_state.md R22, derived by the spec). From outside, only a restore into a block that makes no step (R226;
log 9) and reset (70_reset_and_hazards.md R240) change one. -/
def Obligations.OnlyADestOperandChangesARegister : Prop :=
  (∀ (s t : State) (r : RegIndex), step s = .next t → t.reg r ≠ s.reg r →
    ∃ i rest, s.fetchDecode = .instr i rest ∧
      ((∃ a, i = .set r a) ∨ i = .pop r ∨ (∃ a b, i = .eq r a b) ∨ (∃ a b, i = .gt r a b) ∨
        (∃ a b, i = .add r a b) ∨ (∃ a b, i = .mult r a b) ∨ (∃ a b, i = .mod r a b) ∨
        (∃ a b, i = .and r a b) ∨ (∃ a b, i = .or r a b) ∨ (∃ a, i = .not r a) ∨
        (∃ a, i = .rmem r a) ∨ i = .input r)) ∧
  (∀ (s t : State) (r : RegIndex) (m : HostMove), s.hostMove m = .done t → t.reg r ≠ s.reg r →
    m = .assertReset ∨ ∃ p, m = .restore p ∧ ¬ s.Stepping)

/-- Every later fetch of a cell written by `wmem`, as an opcode or as any of the operand cells that the fetch
unit reaches, reads the value written, as long as the cell holds it, with nothing done in between (20_memory.md
R65, derived by the spec; 70_reset_and_hazards.md R248). The premise on memory is part of the invariant. -/
def Obligations.FetchSeesTheCellWmemWrote : Prop :=
  ∀ (s t u : State) (a v : Source) (n : Nat), Memory.wf s.mem = true → (s.value a).toNat < s.memWords →
    exec (.wmem a v) s = .next t → u.cell (s.value a).toNat = t.cell (s.value a).toNat →
    u.memWords = t.memWords → n < 4 → u.pc.toNat + n = (s.value a).toNat →
    ∃ w, u.cellsAtPc[n]? = some w ∧ w.toNat = (s.value v).toNat

/-- An instruction that decodes lies within memory, so that the pc just past it is at most 32768 and never
wraps (10_state.md R26, derived by the spec). -/
def Obligations.NextPcNeverWraps : Prop :=
  ∀ (s : State) (i : Instr) (rest : List Word), s.Inv → s.fetchDecode = .instr i rest →
    s.pc.toNat + i.length ≤ s.memWords ∧ (s.nextPc i.length).toNat = s.pc.toNat + i.length ∧
      (s.nextPc i.length).toNat ≤ 32768

/-- The input is observed only at an `in`: a step of any other instruction is the same for every input still
to come (10_state.md R38; which answers come is the oracle of log 6). -/
def Obligations.InputIsObservedOnlyByIn : Prop :=
  ∀ (s : State) (n : Nat), (∀ d rest, s.fetchDecode ≠ .instr (.input d) rest) →
    step { s with polls := n } =
      match step s with
      | .next t => .next { t with polls := n }
      | .fault r => .fault r
      | .refused r => .refused r

/-- A run has halted, or faulted with a code 1 to 7, or not ended, and `run` with `fault_kind` tells which
(60_exceptions.md R208; the codes are the spec's decision D7). -/
def Obligations.RunOutcomesAreDistinguishable : Prop :=
  ∀ s : State, s.Inv →
    (s.runOutcome = .halted ↔ s.status.run = 1) ∧
    (s.runOutcome = .notEnded ↔ s.status.run = 0) ∧
    (∀ c, s.runOutcome = .faulted c ↔ s.status.run = 2 ∧ s.status.faultKind = c) ∧
    (s.status.run = 2 → 1 ≤ s.status.faultKind.toNat) ∧
    (s.status.run ≠ 2 → s.status.faultKind = 0)

/-! ## Reset and the host -/

/-- R24 and R27, of the machine right after reset; the stack is empty (R31, decision D22), the record clear
and the run state RUNNING. -/
def Obligations.ResetStateHoldsTheSpecsValues : Prop :=
  (∀ r, State.reset.reg r = 0) ∧ State.reset.pc = 0 ∧ State.reset.stack = [] ∧
    State.reset.run = .running ∧ State.reset.faultRec = FaultRecord.clear ∧ State.reset.output = []

/-- Asserting reset, in any state, leaves every item of 70_reset_and_hazards.md R240 at its reset value and
memory as it was (the spec's decisions D8, D15, D20, D22), and the block in reset, so that the load of R244 can
follow as the boot order R246 has it (the reset line is log 7). That it keeps the run enable, STACK_DEPTH and the
count of polls is the model's choice, log 10. -/
def Obligations.AssertingResetLeavesTheResetValues : Prop :=
  ∀ s : State, ∃ t, s.hostMove .assertReset = .done t ∧ ResetLeaves s t ∧ t.inReset = true ∧
    t.runEnable = s.runEnable ∧ t.stackDepth = s.stackDepth ∧ t.polls = s.polls

/-- The host may set its run enable either way and release reset in every state, and each changes its own line
and nothing else (60_exceptions.md R222, 70_reset_and_hazards.md R246, the spec's decisions D13 and D15; the
lines as fields are log 7, that the moves are always allowed is log 12). -/
def Obligations.HostLinesChangeNothingElse : Prop :=
  ∀ s : State,
    (∀ on : Bool, ∃ t, s.hostMove (.setRunEnable on) = .done t ∧ t.runEnable = on ∧
      t = { s with runEnable := t.runEnable }) ∧
    ∃ t, s.hostMove .releaseReset = .done t ∧ t.inReset = false ∧ t = { s with inReset := t.inReset }

/-- No step changes the run enable or the reset line; of the host's moves only the setting of the run enable
changes the one, and only asserting or releasing reset the other (60_exceptions.md R215, R222; the lines as
fields are log 7, that reset keeps the run enable is log 10). -/
def Obligations.OnlyTheHostsOwnMovesChangeItsLines : Prop :=
  (∀ s t : State, step s = .next t → t.runEnable = s.runEnable ∧ t.inReset = s.inReset) ∧
  (∀ (s t : State) (m : HostMove), s.hostMove m = .done t →
    (t.runEnable ≠ s.runEnable → ∃ on, m = .setRunEnable on) ∧
    (t.inReset ≠ s.inReset → m = .assertReset ∨ m = .releaseReset))

/-- A halted or faulted block makes no step, and the only move of the host that changes its run state is
reset (70_reset_and_hazards.md R241 and 60_exceptions.md R207; the spec's decision D20). -/
def Obligations.OnlyResetLeavesAStoppedRun : Prop :=
  ∀ s : State, s.run ≠ .running →
    (∀ t, step s ≠ .next t) ∧
    (∀ m t, s.hostMove m = .done t → t.run ≠ s.run → m = .assertReset)

/-- The load, in reset, gives memory the cells of the image and MEM_WORDS its length; a longer image than 32768
cells, or a load outside reset, is no move (70_reset_and_hazards.md R244, decisions D3 and D15; log 12). -/
def Obligations.LoadPlacesTheImage : Prop :=
  ∀ (s : State) (image : List Word),
    (s.inReset = true → image.length ≤ 32768 → ∃ t, s.hostMove (.load image) = .done t ∧
      t.memWords = image.length ∧ (∀ (k : Nat) (h : k < image.length), t.cell k = image[k]) ∧
      t = { s with mem := t.mem, memWords := t.memWords }) ∧
    (s.inReset = false ∨ 32768 < image.length → s.hostMove (.load image) = .noMove)

/-- Every byte stream of even length makes an image, and the cells of an image are the pairs of its bytes, low
byte first (20_memory.md R57, the formula derived by the spec). That an odd stream makes none is log 16. -/
def Obligations.ImageCellsAreLittleEndian : Prop :=
  (∀ bytes : List Byte, bytes.length % 2 = 0 → ∃ image, imageOfBytes bytes = some image) ∧
  (∀ (bytes : List Byte) (image : List Word), imageOfBytes bytes = some image →
    bytes.length = 2 * image.length ∧
    ∀ (k : Nat) (w : Word), image[k]? = some w →
      ∃ lo hi, bytes[2 * k]? = some lo ∧ bytes[2 * k + 1]? = some hi ∧
        w.toNat = lo.toNat + 256 * hi.toNat)

/-- Paused, halted or faulted, the host may save, and gets the eight registers, the stack bottom to top and the
pc; while the block steps it may not (60_exceptions.md R224, decision D21; log 9). -/
def Obligations.SnapshotHoldsRegistersStackAndPc : Prop :=
  ∀ s : State,
    (s.runEnable = false ∨ s.run = .halted ∨ s.run = .faulted →
      ∃ p, s.save = some p ∧ p.registers.length = 8 ∧
        (∀ r : RegIndex, p.registers[r.val]? = some (s.reg r).toNat) ∧
        p.stack = s.stack.map (fun w => w.toNat) ∧ p.pc = s.pc.toNat) ∧
    (s.Stepping → s.save = none)

/-- A restore into a block that makes no step overwrites registers, stack and pc and nothing else, where the
state can hold the snapshot; where it cannot, it fails and the state is as it was (60_exceptions.md R226,
R227; the list of failures is the spec's decision D14; when it is allowed is log 9). -/
def Obligations.RestoreIsAllOrNothing : Prop :=
  ∀ (s : State) (p : Snapshot), ¬ s.Stepping →
    ((p.registers.length = 8 ∧ (∀ v ∈ p.registers, v ≤ 32767) ∧ (∀ v ∈ p.stack, v ≤ 65535) ∧
        p.pc ≤ 65535 ∧ (∀ n, s.stackDepth = some n → p.stack.length ≤ n)) →
      ∃ t, s.hostMove (.restore p) = .done t ∧
        (∀ r : RegIndex, p.registers[r.val]? = some (t.reg r).toNat) ∧
        t.stack.map (fun w => w.toNat) = p.stack ∧ t.pc.toNat = p.pc ∧
        t = { s with regs := t.regs, stack := t.stack, pc := t.pc }) ∧
    (¬ (p.registers.length = 8 ∧ (∀ v ∈ p.registers, v ≤ 32767) ∧ (∀ v ∈ p.stack, v ≤ 65535) ∧
        p.pc ≤ 65535 ∧ (∀ n, s.stackDepth = some n → p.stack.length ≤ n)) →
      s.hostMove (.restore p) = .failed s)

/-- A snapshot restored later, into any state of the same block that makes no step, gives back the registers, the
stack and the pc, and leaves the memory of that later state (60_exceptions.md R228, R226). That a block in reset
is among those that can be saved from and restored into is deduced from the boot order, 70_reset_and_hazards.md
R246 (the spec's decision D15; log 9). The premise on the stack is part of the invariant. -/
def Obligations.RestoreGivesBackWhatWasSaved : Prop :=
  ∀ (s t : State) (p : Snapshot), s.save = some p → s.stackFits s.stack.length = true →
    t.stackDepth = s.stackDepth → ¬ t.Stepping →
    ∃ u, t.hostMove (.restore p) = .done u ∧ u.regs = s.regs ∧ u.stack = s.stack ∧ u.pc = s.pc ∧
      u.mem = t.mem

/-! ## The invariant -/

/-- The machine right after reset meets the invariant. -/
def Obligations.ResetMeetsTheInvariant : Prop := State.reset.Inv

/-- HEADLINE. From every state that meets the invariant, whatever instruction or fault it comes to, a step
gives a state that meets it: memory stays canonical and within its cells, at most 32768 of them; the stack
stays within STACK_DEPTH; the record is well made in `FAULTED` and clear otherwise. -/
def Obligations.StepKeepsTheInvariant : Prop :=
  ∀ s t : State, s.Inv → step s = .next t → t.Inv

/-- Every move of the host keeps the invariant. -/
def Obligations.HostMovesKeepTheInvariant : Prop :=
  ∀ (s t : State) (m : HostMove), s.Inv → s.hostMove m = .done t → t.Inv

/-- Every state that steps and host moves reach from reset, for any STACK_DEPTH, any image loaded and
any snapshot restored, meets the invariant. -/
def Obligations.ReachableStatesMeetTheInvariant : Prop :=
  ∀ s : State, Reachable s → s.Inv
end

