-- ==== Sys2Proof/Laws/State.lean ====
section
/-! SUPPORT. What each update of the state leaves in each field, one lemma per field per update, and what a
register reads as after it. -/

namespace Sys2Proof.Machine

variable (s : State)

/-! `setReg` -/

@[simp] theorem State.setReg_regs (r : RegIndex) (v : Value) : (s.setReg r v).regs = s.regs.set r v := rfl
@[simp] theorem State.setReg_pc (r : RegIndex) (v : Value) : (s.setReg r v).pc = s.pc := rfl
@[simp] theorem State.setReg_stack (r : RegIndex) (v : Value) : (s.setReg r v).stack = s.stack := rfl
@[simp] theorem State.setReg_mem (r : RegIndex) (v : Value) : (s.setReg r v).mem = s.mem := rfl
@[simp] theorem State.setReg_memWords (r : RegIndex) (v : Value) : (s.setReg r v).memWords = s.memWords := rfl
@[simp] theorem State.setReg_stackDepth (r : RegIndex) (v : Value) : (s.setReg r v).stackDepth = s.stackDepth := rfl
@[simp] theorem State.setReg_run (r : RegIndex) (v : Value) : (s.setReg r v).run = s.run := rfl
@[simp] theorem State.setReg_faultRec (r : RegIndex) (v : Value) : (s.setReg r v).faultRec = s.faultRec := rfl
@[simp] theorem State.setReg_output (r : RegIndex) (v : Value) : (s.setReg r v).output = s.output := rfl
@[simp] theorem State.setReg_polls (r : RegIndex) (v : Value) : (s.setReg r v).polls = s.polls := rfl
@[simp] theorem State.setReg_runEnable (r : RegIndex) (v : Value) : (s.setReg r v).runEnable = s.runEnable := rfl
@[simp] theorem State.setReg_inReset (r : RegIndex) (v : Value) : (s.setReg r v).inReset = s.inReset := rfl

/-! `setRegWord` -/

@[simp] theorem State.setRegWord_regs (r : RegIndex) (w : Word) : (s.setRegWord r w).regs = s.regs.set r (w.setWidth 15) := rfl
@[simp] theorem State.setRegWord_pc (r : RegIndex) (w : Word) : (s.setRegWord r w).pc = s.pc := rfl
@[simp] theorem State.setRegWord_stack (r : RegIndex) (w : Word) : (s.setRegWord r w).stack = s.stack := rfl
@[simp] theorem State.setRegWord_mem (r : RegIndex) (w : Word) : (s.setRegWord r w).mem = s.mem := rfl
@[simp] theorem State.setRegWord_memWords (r : RegIndex) (w : Word) : (s.setRegWord r w).memWords = s.memWords := rfl
@[simp] theorem State.setRegWord_stackDepth (r : RegIndex) (w : Word) : (s.setRegWord r w).stackDepth = s.stackDepth := rfl
@[simp] theorem State.setRegWord_run (r : RegIndex) (w : Word) : (s.setRegWord r w).run = s.run := rfl
@[simp] theorem State.setRegWord_faultRec (r : RegIndex) (w : Word) : (s.setRegWord r w).faultRec = s.faultRec := rfl
@[simp] theorem State.setRegWord_output (r : RegIndex) (w : Word) : (s.setRegWord r w).output = s.output := rfl
@[simp] theorem State.setRegWord_polls (r : RegIndex) (w : Word) : (s.setRegWord r w).polls = s.polls := rfl
@[simp] theorem State.setRegWord_runEnable (r : RegIndex) (w : Word) : (s.setRegWord r w).runEnable = s.runEnable := rfl
@[simp] theorem State.setRegWord_inReset (r : RegIndex) (w : Word) : (s.setRegWord r w).inReset = s.inReset := rfl

/-! `goto` -/

@[simp] theorem State.goto_regs (w : Word) : (s.goto w).regs = s.regs := rfl
@[simp] theorem State.goto_pc (w : Word) : (s.goto w).pc = w := rfl
@[simp] theorem State.goto_stack (w : Word) : (s.goto w).stack = s.stack := rfl
@[simp] theorem State.goto_mem (w : Word) : (s.goto w).mem = s.mem := rfl
@[simp] theorem State.goto_memWords (w : Word) : (s.goto w).memWords = s.memWords := rfl
@[simp] theorem State.goto_stackDepth (w : Word) : (s.goto w).stackDepth = s.stackDepth := rfl
@[simp] theorem State.goto_run (w : Word) : (s.goto w).run = s.run := rfl
@[simp] theorem State.goto_faultRec (w : Word) : (s.goto w).faultRec = s.faultRec := rfl
@[simp] theorem State.goto_output (w : Word) : (s.goto w).output = s.output := rfl
@[simp] theorem State.goto_polls (w : Word) : (s.goto w).polls = s.polls := rfl
@[simp] theorem State.goto_runEnable (w : Word) : (s.goto w).runEnable = s.runEnable := rfl
@[simp] theorem State.goto_inReset (w : Word) : (s.goto w).inReset = s.inReset := rfl

/-! `advance` -/

@[simp] theorem State.advance_regs (n : Nat) : (s.advance n).regs = s.regs := rfl
@[simp] theorem State.advance_pc (n : Nat) : (s.advance n).pc = s.nextPc n := rfl
@[simp] theorem State.advance_stack (n : Nat) : (s.advance n).stack = s.stack := rfl
@[simp] theorem State.advance_mem (n : Nat) : (s.advance n).mem = s.mem := rfl
@[simp] theorem State.advance_memWords (n : Nat) : (s.advance n).memWords = s.memWords := rfl
@[simp] theorem State.advance_stackDepth (n : Nat) : (s.advance n).stackDepth = s.stackDepth := rfl
@[simp] theorem State.advance_run (n : Nat) : (s.advance n).run = s.run := rfl
@[simp] theorem State.advance_faultRec (n : Nat) : (s.advance n).faultRec = s.faultRec := rfl
@[simp] theorem State.advance_output (n : Nat) : (s.advance n).output = s.output := rfl
@[simp] theorem State.advance_polls (n : Nat) : (s.advance n).polls = s.polls := rfl
@[simp] theorem State.advance_runEnable (n : Nat) : (s.advance n).runEnable = s.runEnable := rfl
@[simp] theorem State.advance_inReset (n : Nat) : (s.advance n).inReset = s.inReset := rfl

/-! `result` -/

@[simp] theorem State.result_regs (d : RegIndex) (v : Value) (n : Nat) : (s.result d v n).regs = s.regs.set d v := rfl
@[simp] theorem State.result_pc (d : RegIndex) (v : Value) (n : Nat) : (s.result d v n).pc = s.nextPc n := rfl
@[simp] theorem State.result_stack (d : RegIndex) (v : Value) (n : Nat) : (s.result d v n).stack = s.stack := rfl
@[simp] theorem State.result_mem (d : RegIndex) (v : Value) (n : Nat) : (s.result d v n).mem = s.mem := rfl
@[simp] theorem State.result_memWords (d : RegIndex) (v : Value) (n : Nat) : (s.result d v n).memWords = s.memWords := rfl
@[simp] theorem State.result_stackDepth (d : RegIndex) (v : Value) (n : Nat) : (s.result d v n).stackDepth = s.stackDepth := rfl
@[simp] theorem State.result_run (d : RegIndex) (v : Value) (n : Nat) : (s.result d v n).run = s.run := rfl
@[simp] theorem State.result_faultRec (d : RegIndex) (v : Value) (n : Nat) : (s.result d v n).faultRec = s.faultRec := rfl
@[simp] theorem State.result_output (d : RegIndex) (v : Value) (n : Nat) : (s.result d v n).output = s.output := rfl
@[simp] theorem State.result_polls (d : RegIndex) (v : Value) (n : Nat) : (s.result d v n).polls = s.polls := rfl
@[simp] theorem State.result_runEnable (d : RegIndex) (v : Value) (n : Nat) : (s.result d v n).runEnable = s.runEnable := rfl
@[simp] theorem State.result_inReset (d : RegIndex) (v : Value) (n : Nat) : (s.result d v n).inReset = s.inReset := rfl

/-! `push` -/

@[simp] theorem State.push_regs (w : Word) : (s.push w).regs = s.regs := rfl
@[simp] theorem State.push_pc (w : Word) : (s.push w).pc = s.pc := rfl
@[simp] theorem State.push_stack (w : Word) : (s.push w).stack = s.stack ++ [w] := rfl
@[simp] theorem State.push_mem (w : Word) : (s.push w).mem = s.mem := rfl
@[simp] theorem State.push_memWords (w : Word) : (s.push w).memWords = s.memWords := rfl
@[simp] theorem State.push_stackDepth (w : Word) : (s.push w).stackDepth = s.stackDepth := rfl
@[simp] theorem State.push_run (w : Word) : (s.push w).run = s.run := rfl
@[simp] theorem State.push_faultRec (w : Word) : (s.push w).faultRec = s.faultRec := rfl
@[simp] theorem State.push_output (w : Word) : (s.push w).output = s.output := rfl
@[simp] theorem State.push_polls (w : Word) : (s.push w).polls = s.polls := rfl
@[simp] theorem State.push_runEnable (w : Word) : (s.push w).runEnable = s.runEnable := rfl
@[simp] theorem State.push_inReset (w : Word) : (s.push w).inReset = s.inReset := rfl

/-! `dropTop` -/

@[simp] theorem State.dropTop_regs : s.dropTop.regs = s.regs := rfl
@[simp] theorem State.dropTop_pc : s.dropTop.pc = s.pc := rfl
@[simp] theorem State.dropTop_stack : s.dropTop.stack = s.stack.dropLast := rfl
@[simp] theorem State.dropTop_mem : s.dropTop.mem = s.mem := rfl
@[simp] theorem State.dropTop_memWords : s.dropTop.memWords = s.memWords := rfl
@[simp] theorem State.dropTop_stackDepth : s.dropTop.stackDepth = s.stackDepth := rfl
@[simp] theorem State.dropTop_run : s.dropTop.run = s.run := rfl
@[simp] theorem State.dropTop_faultRec : s.dropTop.faultRec = s.faultRec := rfl
@[simp] theorem State.dropTop_output : s.dropTop.output = s.output := rfl
@[simp] theorem State.dropTop_polls : s.dropTop.polls = s.polls := rfl
@[simp] theorem State.dropTop_runEnable : s.dropTop.runEnable = s.runEnable := rfl
@[simp] theorem State.dropTop_inReset : s.dropTop.inReset = s.inReset := rfl

/-! `emit` -/

@[simp] theorem State.emit_regs (v : Value) : (s.emit v).regs = s.regs := rfl
@[simp] theorem State.emit_pc (v : Value) : (s.emit v).pc = s.pc := rfl
@[simp] theorem State.emit_stack (v : Value) : (s.emit v).stack = s.stack := rfl
@[simp] theorem State.emit_mem (v : Value) : (s.emit v).mem = s.mem := rfl
@[simp] theorem State.emit_memWords (v : Value) : (s.emit v).memWords = s.memWords := rfl
@[simp] theorem State.emit_stackDepth (v : Value) : (s.emit v).stackDepth = s.stackDepth := rfl
@[simp] theorem State.emit_run (v : Value) : (s.emit v).run = s.run := rfl
@[simp] theorem State.emit_faultRec (v : Value) : (s.emit v).faultRec = s.faultRec := rfl
@[simp] theorem State.emit_output (v : Value) : (s.emit v).output = s.output ++ [v] := rfl
@[simp] theorem State.emit_polls (v : Value) : (s.emit v).polls = s.polls := rfl
@[simp] theorem State.emit_runEnable (v : Value) : (s.emit v).runEnable = s.runEnable := rfl
@[simp] theorem State.emit_inReset (v : Value) : (s.emit v).inReset = s.inReset := rfl

/-! `receive` -/

@[simp] theorem State.receive_regs (d : RegIndex) (a : Option Value) : (s.receive d a).regs = s.regs.set d (a.getD (s.reg d)) := rfl
@[simp] theorem State.receive_pc (d : RegIndex) (a : Option Value) : (s.receive d a).pc = s.pc := rfl
@[simp] theorem State.receive_stack (d : RegIndex) (a : Option Value) : (s.receive d a).stack = s.stack := rfl
@[simp] theorem State.receive_mem (d : RegIndex) (a : Option Value) : (s.receive d a).mem = s.mem := rfl
@[simp] theorem State.receive_memWords (d : RegIndex) (a : Option Value) : (s.receive d a).memWords = s.memWords := rfl
@[simp] theorem State.receive_stackDepth (d : RegIndex) (a : Option Value) : (s.receive d a).stackDepth = s.stackDepth := rfl
@[simp] theorem State.receive_run (d : RegIndex) (a : Option Value) : (s.receive d a).run = s.run := rfl
@[simp] theorem State.receive_faultRec (d : RegIndex) (a : Option Value) : (s.receive d a).faultRec = s.faultRec := rfl
@[simp] theorem State.receive_output (d : RegIndex) (a : Option Value) : (s.receive d a).output = s.output := rfl
@[simp] theorem State.receive_polls (d : RegIndex) (a : Option Value) : (s.receive d a).polls = s.polls + 1 := rfl
@[simp] theorem State.receive_runEnable (d : RegIndex) (a : Option Value) : (s.receive d a).runEnable = s.runEnable := rfl
@[simp] theorem State.receive_inReset (d : RegIndex) (a : Option Value) : (s.receive d a).inReset = s.inReset := rfl

/-! `halt` -/

@[simp] theorem State.halt_regs : s.halt.regs = s.regs := rfl
@[simp] theorem State.halt_pc : s.halt.pc = s.pc := rfl
@[simp] theorem State.halt_stack : s.halt.stack = s.stack := rfl
@[simp] theorem State.halt_mem : s.halt.mem = s.mem := rfl
@[simp] theorem State.halt_memWords : s.halt.memWords = s.memWords := rfl
@[simp] theorem State.halt_stackDepth : s.halt.stackDepth = s.stackDepth := rfl
@[simp] theorem State.halt_run : s.halt.run = .halted := rfl
@[simp] theorem State.halt_faultRec : s.halt.faultRec = s.faultRec := rfl
@[simp] theorem State.halt_output : s.halt.output = s.output := rfl
@[simp] theorem State.halt_polls : s.halt.polls = s.polls := rfl
@[simp] theorem State.halt_runEnable : s.halt.runEnable = s.runEnable := rfl
@[simp] theorem State.halt_inReset : s.halt.inReset = s.inReset := rfl

/-! `setCell` -/

@[simp] theorem State.setCell_regs (k : Nat) (w : Word) : (s.setCell k w).regs = s.regs := rfl
@[simp] theorem State.setCell_pc (k : Nat) (w : Word) : (s.setCell k w).pc = s.pc := rfl
@[simp] theorem State.setCell_stack (k : Nat) (w : Word) : (s.setCell k w).stack = s.stack := rfl
@[simp] theorem State.setCell_mem (k : Nat) (w : Word) : (s.setCell k w).mem = Memory.writeCell s.mem k w := rfl
@[simp] theorem State.setCell_memWords (k : Nat) (w : Word) : (s.setCell k w).memWords = s.memWords := rfl
@[simp] theorem State.setCell_stackDepth (k : Nat) (w : Word) : (s.setCell k w).stackDepth = s.stackDepth := rfl
@[simp] theorem State.setCell_run (k : Nat) (w : Word) : (s.setCell k w).run = s.run := rfl
@[simp] theorem State.setCell_faultRec (k : Nat) (w : Word) : (s.setCell k w).faultRec = s.faultRec := rfl
@[simp] theorem State.setCell_output (k : Nat) (w : Word) : (s.setCell k w).output = s.output := rfl
@[simp] theorem State.setCell_polls (k : Nat) (w : Word) : (s.setCell k w).polls = s.polls := rfl
@[simp] theorem State.setCell_runEnable (k : Nat) (w : Word) : (s.setCell k w).runEnable = s.runEnable := rfl
@[simp] theorem State.setCell_inReset (k : Nat) (w : Word) : (s.setCell k w).inReset = s.inReset := rfl

/-! `takeFault` -/

@[simp] theorem State.takeFault_regs (k : FaultKind) (o : Word) (l : List Word) (a : AccessKind) (x : Word) : (s.takeFault k o l a x).regs = s.regs := rfl
@[simp] theorem State.takeFault_pc (k : FaultKind) (o : Word) (l : List Word) (a : AccessKind) (x : Word) : (s.takeFault k o l a x).pc = s.pc := rfl
@[simp] theorem State.takeFault_stack (k : FaultKind) (o : Word) (l : List Word) (a : AccessKind) (x : Word) : (s.takeFault k o l a x).stack = s.stack := rfl
@[simp] theorem State.takeFault_mem (k : FaultKind) (o : Word) (l : List Word) (a : AccessKind) (x : Word) : (s.takeFault k o l a x).mem = s.mem := rfl
@[simp] theorem State.takeFault_memWords (k : FaultKind) (o : Word) (l : List Word) (a : AccessKind) (x : Word) : (s.takeFault k o l a x).memWords = s.memWords := rfl
@[simp] theorem State.takeFault_stackDepth (k : FaultKind) (o : Word) (l : List Word) (a : AccessKind) (x : Word) : (s.takeFault k o l a x).stackDepth = s.stackDepth := rfl
@[simp] theorem State.takeFault_run (k : FaultKind) (o : Word) (l : List Word) (a : AccessKind) (x : Word) : (s.takeFault k o l a x).run = .faulted := rfl
@[simp] theorem State.takeFault_output (k : FaultKind) (o : Word) (l : List Word) (a : AccessKind) (x : Word) : (s.takeFault k o l a x).output = s.output := rfl
@[simp] theorem State.takeFault_polls (k : FaultKind) (o : Word) (l : List Word) (a : AccessKind) (x : Word) : (s.takeFault k o l a x).polls = s.polls := rfl
@[simp] theorem State.takeFault_runEnable (k : FaultKind) (o : Word) (l : List Word) (a : AccessKind) (x : Word) : (s.takeFault k o l a x).runEnable = s.runEnable := rfl
@[simp] theorem State.takeFault_inReset (k : FaultKind) (o : Word) (l : List Word) (a : AccessKind) (x : Word) : (s.takeFault k o l a x).inReset = s.inReset := rfl

/-! `enterReset` -/

@[simp] theorem State.enterReset_regs : s.enterReset.regs = Vector.replicate 8 0 := rfl
@[simp] theorem State.enterReset_pc : s.enterReset.pc = 0 := rfl
@[simp] theorem State.enterReset_stack : s.enterReset.stack = [] := rfl
@[simp] theorem State.enterReset_mem : s.enterReset.mem = s.mem := rfl
@[simp] theorem State.enterReset_memWords : s.enterReset.memWords = s.memWords := rfl
@[simp] theorem State.enterReset_stackDepth : s.enterReset.stackDepth = s.stackDepth := rfl
@[simp] theorem State.enterReset_run : s.enterReset.run = .running := rfl
@[simp] theorem State.enterReset_faultRec : s.enterReset.faultRec = FaultRecord.clear := rfl
@[simp] theorem State.enterReset_output : s.enterReset.output = [] := rfl
@[simp] theorem State.enterReset_polls : s.enterReset.polls = s.polls := rfl
@[simp] theorem State.enterReset_runEnable : s.enterReset.runEnable = s.runEnable := rfl
@[simp] theorem State.enterReset_inReset : s.enterReset.inReset = true := rfl

/-! `withImage` -/

@[simp] theorem State.withImage_regs (ws : List Word) : (s.withImage ws).regs = s.regs := rfl
@[simp] theorem State.withImage_pc (ws : List Word) : (s.withImage ws).pc = s.pc := rfl
@[simp] theorem State.withImage_stack (ws : List Word) : (s.withImage ws).stack = s.stack := rfl
@[simp] theorem State.withImage_mem (ws : List Word) : (s.withImage ws).mem = Memory.ofImage 0 ws := rfl
@[simp] theorem State.withImage_memWords (ws : List Word) : (s.withImage ws).memWords = ws.length := rfl
@[simp] theorem State.withImage_stackDepth (ws : List Word) : (s.withImage ws).stackDepth = s.stackDepth := rfl
@[simp] theorem State.withImage_run (ws : List Word) : (s.withImage ws).run = s.run := rfl
@[simp] theorem State.withImage_faultRec (ws : List Word) : (s.withImage ws).faultRec = s.faultRec := rfl
@[simp] theorem State.withImage_output (ws : List Word) : (s.withImage ws).output = s.output := rfl
@[simp] theorem State.withImage_polls (ws : List Word) : (s.withImage ws).polls = s.polls := rfl
@[simp] theorem State.withImage_runEnable (ws : List Word) : (s.withImage ws).runEnable = s.runEnable := rfl
@[simp] theorem State.withImage_inReset (ws : List Word) : (s.withImage ws).inReset = s.inReset := rfl

/-! `overwrite` -/

@[simp] theorem State.overwrite_pc (p : Snapshot) : (s.overwrite p).pc = BitVec.ofNat 16 p.pc := rfl
@[simp] theorem State.overwrite_stack (p : Snapshot) : (s.overwrite p).stack = p.stack.map (BitVec.ofNat 16) := rfl
@[simp] theorem State.overwrite_mem (p : Snapshot) : (s.overwrite p).mem = s.mem := rfl
@[simp] theorem State.overwrite_memWords (p : Snapshot) : (s.overwrite p).memWords = s.memWords := rfl
@[simp] theorem State.overwrite_stackDepth (p : Snapshot) : (s.overwrite p).stackDepth = s.stackDepth := rfl
@[simp] theorem State.overwrite_run (p : Snapshot) : (s.overwrite p).run = s.run := rfl
@[simp] theorem State.overwrite_faultRec (p : Snapshot) : (s.overwrite p).faultRec = s.faultRec := rfl
@[simp] theorem State.overwrite_output (p : Snapshot) : (s.overwrite p).output = s.output := rfl
@[simp] theorem State.overwrite_polls (p : Snapshot) : (s.overwrite p).polls = s.polls := rfl
@[simp] theorem State.overwrite_runEnable (p : Snapshot) : (s.overwrite p).runEnable = s.runEnable := rfl
@[simp] theorem State.overwrite_inReset (p : Snapshot) : (s.overwrite p).inReset = s.inReset := rfl

/-! What `reg` reads after each update. -/

@[simp] theorem State.reg_setReg_same (r : RegIndex) (v : Value) : (s.setReg r v).reg r = v := by
  simp [State.reg]

theorem State.reg_setReg_ne {r r' : RegIndex} (v : Value) (h : r' ≠ r) : (s.setReg r v).reg r' = s.reg r' := by
  have : (r : Nat) ≠ r' := fun e => h (Fin.ext e.symm)
  simp [State.reg, this]

@[simp] theorem State.reg_setRegWord_same (r : RegIndex) (w : Word) :
    (s.setRegWord r w).reg r = w.setWidth 15 := s.reg_setReg_same r _

theorem State.reg_setRegWord_ne {r r' : RegIndex} (w : Word) (h : r' ≠ r) :
    (s.setRegWord r w).reg r' = s.reg r' := s.reg_setReg_ne _ h

@[simp] theorem State.reg_result_same (d : RegIndex) (v : Value) (n : Nat) : (s.result d v n).reg d = v :=
  s.reg_setReg_same d v

theorem State.reg_result_ne {d r : RegIndex} (v : Value) (n : Nat) (h : r ≠ d) :
    (s.result d v n).reg r = s.reg r := s.reg_setReg_ne v h

@[simp] theorem State.reg_receive_same (d : RegIndex) (a : Option Value) :
    (s.receive d a).reg d = a.getD (s.reg d) := s.reg_setReg_same d _

theorem State.reg_receive_ne {d r : RegIndex} (a : Option Value) (h : r ≠ d) :
    (s.receive d a).reg r = s.reg r := s.reg_setReg_ne _ h

@[simp] theorem State.reg_goto (w : Word) (r : RegIndex) : (s.goto w).reg r = s.reg r := rfl
@[simp] theorem State.reg_advance (n : Nat) (r : RegIndex) : (s.advance n).reg r = s.reg r := rfl
@[simp] theorem State.reg_push (w : Word) (r : RegIndex) : (s.push w).reg r = s.reg r := rfl
@[simp] theorem State.reg_dropTop (r : RegIndex) : s.dropTop.reg r = s.reg r := rfl
@[simp] theorem State.reg_emit (v : Value) (r : RegIndex) : (s.emit v).reg r = s.reg r := rfl
@[simp] theorem State.reg_halt (r : RegIndex) : s.halt.reg r = s.reg r := rfl
@[simp] theorem State.reg_setCell (k : Nat) (w : Word) (r : RegIndex) : (s.setCell k w).reg r = s.reg r := rfl
@[simp] theorem State.reg_takeFault (k : FaultKind) (o : Word) (l : List Word) (a : AccessKind) (x : Word) (r : RegIndex) : (s.takeFault k o l a x).reg r = s.reg r := rfl
@[simp] theorem State.reg_withImage (ws : List Word) (r : RegIndex) : (s.withImage ws).reg r = s.reg r := rfl

@[simp] theorem State.reg_enterReset (r : RegIndex) : s.enterReset.reg r = 0 := by
  simp [State.reg]

/-- The record that fault entry writes (60_exceptions.md R206). -/
@[simp] theorem State.takeFault_faultRec (k : FaultKind) (o : Word) (l : List Word) (a : AccessKind) (x : Word) :
    (s.takeFault k o l a x).faultRec =
      ⟨k, s.pc, o, BitVec.ofNat 2 l.length, l.getD 0 0, l.getD 1 0, l.getD 2 0, x, a⟩ := rfl

@[simp] theorem State.inBounds_iff (k : Nat) : s.inBounds k = true ↔ k < s.memWords := by
  simp [State.inBounds]

end Sys2Proof.Machine
end

