-- ==== Sys2Proof/Laws/Decode.lean ====
section
/-! SUPPORT. What the operand decoders and the pieces of the decoder do, each said once. -/

namespace Sys2Proof

theorem registerCell_toNat (r : RegIndex) : (registerCell r).toNat = 32768 + r.val := by
  have := r.isLt
  simp only [registerCell, BitVec.toNat_ofNat]
  omega

theorem sourceCell_lit_toNat (v : Value) : (sourceCell (.lit v)).toNat = v.toNat := by
  have := v.isLt
  simp only [sourceCell, BitVec.toNat_setWidth]
  omega

@[simp] theorem asRegisterIndex_registerCell (r : RegIndex) : asRegisterIndex (registerCell r) = some r := by
  have h := registerCell_toNat r
  have hr := r.isLt
  unfold asRegisterIndex
  rw [dif_pos (by omega)]
  exact congrArg some (Fin.ext (by simp only [h]; omega))

@[simp] theorem sourceOf_sourceCell (a : Source) : sourceOf (sourceCell a) = some a := by
  cases a with
  | lit v =>
    have h := sourceCell_lit_toNat v
    have hv := v.isLt
    unfold sourceOf
    rw [if_pos (by omega)]
    simp [sourceCell]
  | reg r =>
    have h := registerCell_toNat r
    have hr := r.isLt
    change sourceOf (registerCell r) = _
    unfold sourceOf
    rw [if_neg (by omega), dif_pos (by omega)]
    exact congrArg (fun r => some (Source.reg r)) (Fin.ext (by simp only [h]; omega))

/-- What `asRegisterIndex` reads is written back as the same cell. -/
theorem registerCell_of_asRegisterIndex {w : Word} {r : RegIndex} (h : asRegisterIndex w = some r) :
    registerCell r = w := by
  unfold asRegisterIndex at h
  split at h
  · apply BitVec.eq_of_toNat_eq
    rw [registerCell_toNat, ← Option.some.inj h]
    simp only
    omega
  · cases h

/-- What `sourceOf` reads is written back as the same cell. -/
theorem sourceCell_of_sourceOf {w : Word} {a : Source} (h : sourceOf w = some a) : sourceCell a = w := by
  unfold sourceOf at h
  split at h
  · apply BitVec.eq_of_toNat_eq
    rw [← Option.some.inj h, sourceCell_lit_toNat, BitVec.toNat_setWidth]
    omega
  · split at h
    · apply BitVec.eq_of_toNat_eq
      rw [← Option.some.inj h, sourceCell, registerCell_toNat]
      simp only
      omega
    · cases h

/-- A dest cell decodes exactly where the table of well-formed cells says so. -/
theorem asRegisterIndex_isSome (w : Word) : (asRegisterIndex w).isSome = operandCellOk .dest w := by
  unfold asRegisterIndex operandCellOk
  split <;> simp_all

/-- A source cell decodes exactly where the table of well-formed cells says so. -/
theorem sourceOf_isSome (w : Word) : (sourceOf w).isSome = operandCellOk .source w := by
  unfold sourceOf operandCellOk
  split
  · simp; omega
  · split <;> simp_all

theorem operandCellOk_registerCell (k : OperandKind) (r : RegIndex) :
    operandCellOk k (registerCell r) = true := by
  have h := registerCell_toNat r
  have hr := r.isLt
  cases k <;> simp [operandCellOk] <;> omega

theorem operandCellOk_sourceCell (a : Source) : operandCellOk .source (sourceCell a) = true := by
  rw [← sourceOf_isSome, sourceOf_sourceCell]
  rfl

/-- What reading a dest operand can give, case by case. -/
theorem readDest_cases (op : Word) (got cells : List Word) (go : RegIndex → List Word → List Word → Decoded) :
    (cells = [] ∧ readDest op got cells go = .failed (.noOperandCell op got)) ∨
    (∃ raw rest, cells = raw :: rest ∧ operandCellOk .dest raw = false ∧
      readDest op got cells go = .failed (.invalidDestination op (got ++ [raw]))) ∨
    (∃ d rest, cells = registerCell d :: rest ∧
      readDest op got cells go = go d (got ++ [registerCell d]) rest) := by
  cases cells with
  | nil => exact .inl ⟨rfl, rfl⟩
  | cons raw rest =>
    cases h : asRegisterIndex raw with
    | none =>
      refine .inr (.inl ⟨raw, rest, rfl, ?_, by simp [readDest, h]⟩)
      rw [← asRegisterIndex_isSome, h]
      rfl
    | some d =>
      have hd := registerCell_of_asRegisterIndex h
      exact .inr (.inr ⟨d, rest, by rw [hd], by simp [readDest, h, hd]⟩)

/-- What reading a source operand can give, case by case. -/
theorem readSource_cases (op : Word) (got cells : List Word) (go : Source → List Word → List Word → Decoded) :
    (cells = [] ∧ readSource op got cells go = .failed (.noOperandCell op got)) ∨
    (∃ raw rest, cells = raw :: rest ∧ operandCellOk .source raw = false ∧
      readSource op got cells go = .failed (.invalidOperand op (got ++ [raw]))) ∨
    (∃ a rest, cells = sourceCell a :: rest ∧
      readSource op got cells go = go a (got ++ [sourceCell a]) rest) := by
  cases cells with
  | nil => exact .inl ⟨rfl, rfl⟩
  | cons raw rest =>
    cases h : sourceOf raw with
    | none =>
      refine .inr (.inl ⟨raw, rest, rfl, ?_, by simp [readSource, h]⟩)
      rw [← sourceOf_isSome, h]
      rfl
    | some a =>
      have ha := sourceCell_of_sourceOf h
      exact .inr (.inr ⟨a, rest, by rw [ha], by simp [readSource, h, ha]⟩)

@[simp] theorem readDest_registerCell (op : Word) (got rest : List Word) (d : RegIndex)
    (go : RegIndex → List Word → List Word → Decoded) :
    readDest op got (registerCell d :: rest) go = go d (got ++ [registerCell d]) rest := by
  simp [readDest]

@[simp] theorem readSource_sourceCell (op : Word) (got rest : List Word) (a : Source)
    (go : Source → List Word → List Word → Decoded) :
    readSource op got (sourceCell a :: rest) go = go a (got ++ [sourceCell a]) rest := by
  simp [readSource]

/-- The opcode of a cell is known exactly for the numbers that have operand kinds. -/
theorem opcodeOf_eq_none_iff (w : Word) : opcodeOf w = none ↔ operandKinds w.toNat = none := by
  unfold opcodeOf operandKinds
  split <;> simp_all

/-- A cell of 22 or more is no opcode (30_encoding.md R81). -/
theorem opcodeOf_of_le {w : Word} (h : 22 ≤ w.toNat) : opcodeOf w = none := by
  unfold opcodeOf
  split <;> first | rfl | omega

end Sys2Proof
end

