-- ==== Sys2Proof/Laws/Memory.lean ====
section
/-! SUPPORT. The laws of memory: every operation keeps the canonical form, a read after a write gives what was
written, and a write leaves every other byte and cell alone. -/

namespace Sys2Proof.Machine

theorem Memory.wfFrom_mono {lo lo' : Nat} (h : lo ≤ lo') :
    ∀ {m : List Host.Cell}, Memory.wfFrom lo' m = true → Memory.wfFrom lo m = true
  | [], _ => rfl
  | (a, v) :: m, hm => by
    simp only [Memory.wfFrom, Bool.and_eq_true, decide_eq_true_eq] at hm ⊢
    exact ⟨⟨h.trans hm.1.1, hm.1.2⟩, hm.2⟩

theorem Memory.readByte_eq_unlisted_of_wfFrom {lo a : Nat} (ha : a < lo) :
    ∀ {m : List Host.Cell}, Memory.wfFrom lo m = true → Memory.readByte m a = Memory.unlisted
  | [], _ => rfl
  | (b, w) :: m, hm => by
    simp only [Memory.wfFrom, Bool.and_eq_true, decide_eq_true_eq] at hm
    have hb : b ≠ a := by omega
    simp only [Memory.readByte, hb, if_false]
    exact Memory.readByte_eq_unlisted_of_wfFrom (by omega) hm.2

theorem Memory.readByte_writeByte_ne {a a' : Nat} (v : Byte) (h : a' ≠ a) :
    ∀ m : List Host.Cell, Memory.readByte (Memory.writeByte m a v) a' = Memory.readByte m a'
  | [] => by
    unfold Memory.writeByte
    split <;> simp [Memory.readByte, h.symm]
  | (b, w) :: m => by
    unfold Memory.writeByte
    have ih := Memory.readByte_writeByte_ne v h m
    split
    · split <;> simp [Memory.readByte, h.symm]
    · split
      · have : b ≠ a' := by omega
        split <;> simp [Memory.readByte, h.symm, this]
      · simp [Memory.readByte, ih]

theorem Memory.readByte_writeByte_same (a : Nat) (v : Byte) :
    ∀ {lo : Nat} {m : List Host.Cell}, Memory.wfFrom lo m = true →
      Memory.readByte (Memory.writeByte m a v) a = v
  | lo, [], _ => by
    unfold Memory.writeByte
    split <;> simp_all [Memory.readByte]
  | lo, (b, w) :: m, hm => by
    simp only [Memory.wfFrom, Bool.and_eq_true, decide_eq_true_eq] at hm
    unfold Memory.writeByte
    split
    · rename_i hlt
      split
      · rename_i hv
        have hb : b ≠ a := by omega
        simp only [Memory.readByte, hb, if_false, hv]
        exact Memory.readByte_eq_unlisted_of_wfFrom (by omega) hm.2
      · simp [Memory.readByte]
    · split
      · rename_i heq
        split
        · rename_i hv
          rw [hv]
          exact Memory.readByte_eq_unlisted_of_wfFrom (by omega) hm.2
        · simp [Memory.readByte]
      · have hb : b ≠ a := by omega
        simp only [Memory.readByte, hb, if_false]
        exact Memory.readByte_writeByte_same a v hm.2

theorem Memory.writeByte_wfFrom (a : Nat) (v : Byte) :
    ∀ {lo : Nat} {m : List Host.Cell}, lo ≤ a → Memory.wfFrom lo m = true →
      Memory.wfFrom lo (Memory.writeByte m a v) = true
  | lo, [], h, _ => by
    unfold Memory.writeByte
    split <;> simp_all [Memory.wfFrom]
  | lo, (b, w) :: m, h, hm => by
    have hm' := hm
    simp only [Memory.wfFrom, Bool.and_eq_true, decide_eq_true_eq] at hm'
    unfold Memory.writeByte
    split
    · split
      · exact hm
      · rename_i hlt hv
        simp only [Memory.wfFrom, Bool.and_eq_true, decide_eq_true_eq]
        exact ⟨⟨h, hv⟩, ⟨by omega, hm'.1.2⟩, hm'.2⟩
    · split
      · rename_i heq
        subst heq
        split
        · exact Memory.wfFrom_mono (by omega) hm'.2
        · rename_i hv
          simp only [Memory.wfFrom, Bool.and_eq_true, decide_eq_true_eq]
          exact ⟨⟨h, hv⟩, hm'.2⟩
      · simp only [Memory.wfFrom, Bool.and_eq_true, decide_eq_true_eq]
        exact ⟨hm'.1, Memory.writeByte_wfFrom a v (by omega) hm'.2⟩

/-- Writing a byte keeps the canonical form. -/
theorem Memory.writeByte_wf {m : List Host.Cell} (a : Nat) (v : Byte) (h : Memory.wf m = true) :
    Memory.wf (Memory.writeByte m a v) = true :=
  Memory.writeByte_wfFrom a v (Nat.zero_le a) h

/-- Writing a cell keeps the canonical form. -/
theorem Memory.writeCell_wf {m : List Host.Cell} (k : Nat) (v : Word) (h : Memory.wf m = true) :
    Memory.wf (Memory.writeCell m k v) = true :=
  Memory.writeByte_wf _ _ (Memory.writeByte_wf _ _ h)

/-- The memory of an image is canonical. -/
theorem Memory.ofImage_wf : ∀ (k : Nat) (ws : List Word), Memory.wf (Memory.ofImage k ws) = true
  | _, [] => rfl
  | k, _ :: ws => Memory.writeCell_wf k _ (Memory.ofImage_wf (k + 1) ws)

theorem Memory.writeByte_below {m : List Host.Cell} {words : Nat} {a : Nat} (v : Byte) (ha : a < 2 * words)
    (h : Memory.below m words = true) : Memory.below (Memory.writeByte m a v) words = true := by
  induction m with
  | nil => unfold Memory.writeByte; split <;> simp_all [Memory.below]
  | cons c m ih =>
    obtain ⟨b, w⟩ := c
    have hc : b < 2 * words ∧ Memory.below m words = true := by simpa [Memory.below] using h
    have ihm := ih hc.2
    unfold Memory.writeByte
    split
    · split
      · exact h
      · simpa [Memory.below, ha] using h
    · split
      · split
        · exact hc.2
        · simpa [Memory.below, ha] using hc.2
      · simpa [Memory.below, hc.1] using ihm

/-- Writing a cell that exists lists no byte outside memory. -/
theorem Memory.writeCell_below {m : List Host.Cell} {words k : Nat} (v : Word) (hk : k < words)
    (h : Memory.below m words = true) : Memory.below (Memory.writeCell m k v) words = true :=
  Memory.writeByte_below _ (by omega) (Memory.writeByte_below _ (by omega) h)

theorem Memory.ofImage_below {words : Nat} : ∀ (k : Nat) (ws : List Word), k + ws.length ≤ words →
    Memory.below (Memory.ofImage k ws) words = true
  | _, [], _ => rfl
  | k, _ :: ws, h => by
    have h' : k + (ws.length + 1) ≤ words := h
    exact Memory.writeCell_below _ (by omega) (Memory.ofImage_below (k + 1) ws (by omega))

/-- A byte outside the cell written reads as before. -/
theorem Memory.readByte_writeCell_ne {m : List Host.Cell} {k a : Nat} (v : Word)
    (h : a ≠ 2 * k ∧ a ≠ 2 * k + 1) : Memory.readByte (Memory.writeCell m k v) a = Memory.readByte m a := by
  rw [Memory.writeCell, Memory.readByte_writeByte_ne _ h.2, Memory.readByte_writeByte_ne _ h.1]

/-- Another cell reads as before. -/
theorem Memory.readCell_writeCell_ne {m : List Host.Cell} {k j : Nat} (v : Word) (h : j ≠ k) :
    Memory.readCell (Memory.writeCell m k v) j = Memory.readCell m j := by
  rw [Memory.readCell, Memory.readByte_writeCell_ne v (by omega), Memory.readByte_writeCell_ne v (by omega),
    Memory.readCell]

theorem word_halves (v : Word) : v.extractLsb' 8 8 ++ v.extractLsb' 0 8 = v := by
  ext i hi
  simp only [BitVec.getElem_append, BitVec.getElem_extractLsb']
  split
  · simp [BitVec.getLsbD_eq_getElem hi]
  · rw [show 8 + (i - 8) = i by omega, BitVec.getLsbD_eq_getElem hi]

/-- The cell written reads as the value written, in canonical memory. -/
theorem Memory.readCell_writeCell_same {m : List Host.Cell} (k : Nat) (v : Word) (h : Memory.wf m = true) :
    Memory.readCell (Memory.writeCell m k v) k = v := by
  have h1 := Memory.writeByte_wf (2 * k) (v.extractLsb' 0 8) h
  rw [Memory.readCell, Memory.writeCell, Memory.readByte_writeByte_same _ _ h1,
    Memory.readByte_writeByte_ne _ (by omega), Memory.readByte_writeByte_same _ _ h, word_halves]

/-- The cells of a loaded image (70_reset_and_hazards.md R244). -/
theorem Memory.readCell_ofImage : ∀ (k : Nat) (ws : List Word) (j : Nat) (h : j < ws.length),
    Memory.readCell (Memory.ofImage k ws) (k + j) = ws[j]
  | k, w :: ws, 0, _ => Memory.readCell_writeCell_same k w (Memory.ofImage_wf (k + 1) ws)
  | k, w :: ws, j + 1, h => by
    have ih := Memory.readCell_ofImage (k + 1) ws j (by simpa using h)
    rw [Memory.ofImage, Memory.readCell_writeCell_ne w (by omega), show k + (j + 1) = k + 1 + j by omega, ih]
    rfl

end Sys2Proof.Machine
end

