-- ==== Sys2Proof/Laws/Ops.lean ====
section
/-! SUPPORT. What each shared operation can do, each said once: taking a fault, making no step, fetching,
stepping. -/

namespace Sys2Proof.Machine

/-- Fault entry takes the fault it is given and nothing else (60_exceptions.md R205, R206). -/
theorem State.takeFault_faultTaken (s : State) (k : FaultKind) (o : Word) (l : List Word) (a : AccessKind)
    (x : Word) (hl : l.length ≤ 3) : FaultTaken s (s.takeFault k o l a x) k o l a x := by
  refine ⟨rfl, rfl, rfl, rfl, ?_, ?_, rfl, rfl⟩
  · simp only [State.takeFault_faultRec, BitVec.toNat_ofNat]
    omega
  · match l, hl with
    | [], _ => rfl
    | [_], _ => rfl
    | [_, _], _ => rfl
    | [_, _, _], _ => rfl

theorem operandCells_length_le (i : Instr) : (operandCells i).length ≤ 3 := by
  cases i <;> simp [operandCells]

/-- A fault in execute records the cells of the instruction. -/
theorem State.takeExecFault_faultTaken (s : State) (i : Instr) (k : FaultKind) :
    FaultTaken s (s.takeExecFault i k) k (opcodeCell i) (operandCells i) .none 0 :=
  s.takeFault_faultTaken _ _ _ _ _ (operandCells_length_le i)

/-- An out-of-bounds access in execute records the cells of the instruction, the access and the address. -/
theorem State.takeBoundsFault_faultTaken (s : State) (i : Instr) (a : AccessKind) (x : Word) :
    FaultTaken s (s.takeBoundsFault i a x) .outOfBounds (opcodeCell i) (operandCells i) a x :=
  s.takeFault_faultTaken _ _ _ _ _ (operandCells_length_le i)

/-- The block makes a step exactly where it is running, enabled and out of reset (R105, R222). -/
theorem State.noStep?_eq_none_iff (s : State) :
    s.noStep? = none ↔ s.run = .running ∧ s.runEnable = true ∧ s.inReset = false := by
  unfold State.noStep?
  cases s.inReset <;> cases s.run <;> cases s.runEnable <;> simp

/-- What a step that answers a next state did. -/
theorem step_cases {s t : State} (h : step s = .next t) :
    s.noStep? = none ∧
    ((∃ why, s.fetchDecode = .failed why ∧ t = s.takeDecodeFault why) ∨
     (∃ i rest, s.fetchDecode = .instr i rest ∧ exec i s = .next t)) := by
  unfold step at h
  split at h
  · cases h
  · rename_i hn
    refine ⟨hn, ?_⟩
    split at h
    · rename_i why hw
      cases h
      exact .inl ⟨why, hw, rfl⟩
    · rename_i i rest hi
      exact .inr ⟨i, rest, hi, h⟩

/-- The cells fetched are those of memory, and no more than asked for. -/
theorem State.cellsFrom_length_le (s : State) : ∀ n k, (s.cellsFrom n k).length ≤ n
  | 0, _ => Nat.le_refl 0
  | n + 1, k => by
    unfold State.cellsFrom
    split
    · simpa using s.cellsFrom_length_le n (k + 1)
    · simp

/-- A cell is fetched exactly where it exists and is within reach (40_fetch_dispatch.md R102). -/
theorem State.cellsFrom_getElem? (s : State) : ∀ n k j,
    (s.cellsFrom n k)[j]? = if j < n ∧ k + j < s.memWords then some (s.cell (k + j)) else none
  | 0, k, j => by simp [State.cellsFrom]
  | n + 1, k, j => by
    unfold State.cellsFrom
    by_cases hk : k < s.memWords
    · rw [if_pos ((s.inBounds_iff k).2 hk)]
      cases j with
      | zero => simp [hk]
      | succ j =>
        rw [List.getElem?_cons_succ, s.cellsFrom_getElem? n (k + 1) j]
        simp only [show k + 1 + j = k + (j + 1) by omega, Nat.add_lt_add_iff_right]
    · rw [if_neg (fun h => hk ((s.inBounds_iff k).1 h)), if_neg (by omega)]
      simp

/-- Fetch looks at memory, its size and the pc alone. -/
theorem State.cellsFrom_congr {s t : State} (hm : t.mem = s.mem) (hw : t.memWords = s.memWords) :
    ∀ n k, t.cellsFrom n k = s.cellsFrom n k
  | 0, _ => rfl
  | n + 1, k => by
    have hb : t.inBounds k = s.inBounds k := by simp [State.inBounds, hw]
    have hc : t.cell k = s.cell k := by simp [State.cell, hm]
    rw [State.cellsFrom, State.cellsFrom, hb, hc, State.cellsFrom_congr hm hw n (k + 1)]

/-- The top of a stack that ends in `w`. -/
@[simp] theorem State.top?_concat (s : State) (ws : List Word) (w : Word) (h : s.stack = ws ++ [w]) :
    s.top? = some w := by
  simp [State.top?, h]

/-- The stack is full exactly where it is bounded and has its number of entries (10_state.md R30). -/
theorem State.stackFull_iff (s : State) :
    s.stackFull = true ↔ ∃ n, s.stackDepth = some n ∧ n ≤ s.stack.length := by
  unfold State.stackFull
  cases s.stackDepth <;> simp

theorem State.stackFits_iff (s : State) (n : Nat) :
    s.stackFits n = true ↔ ∀ d, s.stackDepth = some d → n ≤ d := by
  unfold State.stackFits
  cases s.stackDepth <;> simp

/-- What a move of the host that is done did. -/
theorem State.hostMove_cases {s t : State} {m : HostMove} (h : s.hostMove m = .done t) :
    (m = .assertReset ∧ t = s.enterReset) ∨
    (∃ image, m = .load image ∧ s.inReset = true ∧ image.length ≤ Config.memLimit ∧ t = s.withImage image) ∨
    (m = .releaseReset ∧ t = { s with inReset := false }) ∨
    (∃ on, m = .setRunEnable on ∧ t = { s with runEnable := on }) ∨
    (∃ p, m = .restore p ∧ s.quiet = true ∧ s.canRestore p = true ∧ t = s.overwrite p) := by
  cases m with
  | assertReset => cases h; exact .inl ⟨rfl, rfl⟩
  | load image =>
    simp only [State.hostMove, State.load] at h
    split at h
    · rename_i hc
      cases h
      simp only [Bool.and_eq_true, decide_eq_true_eq] at hc
      exact .inr (.inl ⟨image, rfl, hc.1, hc.2, rfl⟩)
    · cases h
  | releaseReset => cases h; exact .inr (.inr (.inl ⟨rfl, rfl⟩))
  | setRunEnable on => cases h; exact .inr (.inr (.inr (.inl ⟨on, rfl, rfl⟩)))
  | restore p =>
    simp only [State.hostMove, State.restore] at h
    split at h
    · rename_i hq
      split at h
      · rename_i hc
        cases h
        exact .inr (.inr (.inr (.inr ⟨p, rfl, hq, hc, rfl⟩)))
      · cases h
    · cases h

end Sys2Proof.Machine
end

