-- ==== Sys2Proof/Laws/Claims.lean ====
section
/-! SUPPORT. Small lemmas about the terms claims use: footprints, values as numbers, the cells at the pc, when the
host may save or restore. -/

namespace Sys2Proof.Machine

/-! ## Values -/

@[simp] theorem zext16_toNat (v : Value) : (zext16 v).toNat = v.toNat := by
  have := v.isLt
  simp only [zext16, BitVec.toNat_setWidth]
  omega

@[simp] theorem State.word_toNat (s : State) (a : Source) : (s.word a).toNat = (s.value a).toNat :=
  zext16_toNat _

theorem State.word_eq_ofNat (s : State) (a : Source) : s.word a = BitVec.ofNat 16 (s.value a).toNat := by
  apply BitVec.eq_of_toNat_eq
  have := (s.value a).isLt
  rw [State.word_toNat, BitVec.toNat_ofNat]
  omega

/-! ## Footprints -/

/-- Nothing changed, so nothing outside any footprint changed. -/
theorem KeepsOutside.refl (f : Footprint) (s : State) : KeepsOutside f s s :=
  ⟨fun _ _ => rfl, fun _ _ => rfl, fun _ => rfl, fun _ => rfl, fun _ => rfl, fun _ => rfl, rfl, rfl, rfl, rfl, rfl⟩

/-- The pc is outside every footprint's concern. -/
theorem KeepsOutside.goto {f : Footprint} {s t : State} (w : Word) (h : KeepsOutside f s t) :
    KeepsOutside f s (t.goto w) := h

/-- A write of one register keeps all outside a footprint that names it. -/
theorem KeepsOutside.setReg {f : Footprint} (s : State) {d : RegIndex} (v : Value) (h : f.reg = some d) :
    KeepsOutside f s (s.setReg d v) :=
  ⟨fun r hr => s.reg_setReg_ne v fun e => hr (by rw [h, e]), fun _ _ => rfl, fun _ => rfl, fun _ => rfl,
    fun _ => rfl, fun _ => rfl, rfl, rfl, rfl, rfl, rfl⟩

/-- A write of one cell keeps all outside a footprint that names it. -/
theorem KeepsOutside.setCell {f : Footprint} (s : State) {k : Nat} (w : Word) (h : f.cell = some k) :
    KeepsOutside f s (s.setCell k w) :=
  ⟨fun _ _ => rfl, fun _ ha => Memory.readByte_writeCell_ne w (ha k h), fun _ => rfl, fun _ => rfl,
    fun _ => rfl, fun _ => rfl, rfl, rfl, rfl, rfl, rfl⟩

/-- Room on the stack is what the push operations look for. -/
theorem State.stackFull_of_hasRoom {s : State} (h : s.HasRoom) : s.stackFull = false := by
  rw [Bool.eq_false_iff]
  intro hf
  obtain ⟨n, hn, hle⟩ := s.stackFull_iff.1 hf
  have := h n hn
  omega

theorem State.stackFull_of_isFull {s : State} (h : s.IsFull) : s.stackFull = true := s.stackFull_iff.2 h

/-! ## The cells at the pc -/

theorem State.cellsAtPc_of_inBounds {s : State} (h : s.pc.toNat < s.memWords) :
    s.cellsAtPc = s.cell s.pc.toNat :: s.cellsFrom 3 (s.pc.toNat + 1) := by
  simp only [State.cellsAtPc, Config.longest]
  rw [State.cellsFrom, if_pos ((s.inBounds_iff _).2 h)]

theorem State.cellsAtPc_of_outOfBounds {s : State} (h : s.memWords ≤ s.pc.toNat) : s.cellsAtPc = [] := by
  simp only [State.cellsAtPc, Config.longest]
  rw [State.cellsFrom, if_neg]
  rw [State.inBounds_iff]
  omega

@[simp] theorem State.rawOperands_length (s : State) (n : Nat) : (s.rawOperands n).length = n := by
  simp [State.rawOperands]

theorem State.rawOperands_succ (s : State) (n : Nat) :
    s.rawOperands (n + 1) = s.rawOperands n ++ [s.cell (s.pc.toNat + 1 + n)] := by
  simp [State.rawOperands, List.range_succ]

/-- The first operand cells fetched are the raw operands, where they exist. -/
theorem State.take_cellsFrom {s : State} {n : Nat} (hn : n ≤ 3) (h : s.pc.toNat + n < s.memWords) :
    (s.cellsFrom 3 (s.pc.toNat + 1)).take n = s.rawOperands n := by
  apply List.ext_getElem?
  intro j
  rw [List.getElem?_take]
  by_cases hj : j < n
  · rw [if_pos hj, State.cellsFrom_getElem?, if_pos ⟨by omega, by omega⟩]
    simp [State.rawOperands, hj]
  · rw [if_neg hj, List.getElem?_eq_none]
    rw [State.rawOperands_length]
    omega

/-- No opcode has more than three operands (30_encoding.md R83). -/
theorem operandKinds_length_le {n : Nat} {kinds : List OperandKind} (h : operandKinds n = some kinds) :
    kinds.length ≤ 3 := by
  unfold operandKinds at h
  split at h <;> simp at h <;> subst h <;> simp

/-- A step of a block that makes steps. -/
theorem step_of_stepping {s : State} (h : s.Stepping) :
    step s =
      match s.fetchDecode with
      | .failed why => .next (s.takeDecodeFault why)
      | .instr i _ => exec i s := by
  cases hf : s.fetchDecode <;> simp [step, s.noStep?_eq_none_iff.2 h, hf]

/-! ## The host -/

theorem State.quiet_iff (s : State) : s.quiet = true ↔ ¬ s.Stepping := by
  simp only [State.quiet, State.Stepping]
  cases s.inReset <;> cases s.runEnable <;> cases s.run <;> simp

/-- The snapshots that R227 lets be restored. -/
theorem State.canRestore_iff (s : State) (p : Snapshot) :
    s.canRestore p = true ↔
      p.registers.length = 8 ∧ (∀ v ∈ p.registers, v ≤ 32767) ∧ (∀ v ∈ p.stack, v ≤ 65535) ∧ p.pc ≤ 65535 ∧
        ∀ n, s.stackDepth = some n → p.stack.length ≤ n := by
  simp only [State.canRestore, Bool.and_eq_true, decide_eq_true_eq, List.all_eq_true, State.stackFits_iff,
    and_assoc]

theorem State.snapshot_registers (s : State) (r : RegIndex) :
    s.snapshot.registers[r.val]? = some (s.reg r).toNat := by
  have := r.isLt
  simp [State.snapshot, State.reg]

end Sys2Proof.Machine
end

