-- ==== Sys2Proof/Laws/PerInstr.lean ====
section
/-! SUPPORT. One family of statements made per instruction: the cells of the encoding, held against the table of
operand kinds that WellFormed.lean writes down apart from the encoder. -/

namespace Sys2Proof.Laws.EncodedShape

/-- The opcode cell has operand kinds, there is one cell for each, each valid for its kind, and the length
is 1 plus their number (30_encoding.md R73, R83, R85). -/
def Statement (i : Instr) : Prop :=
  ∃ kinds, operandKinds (opcodeCell i).toNat = some kinds ∧
    operandCellsOk kinds (operandCells i) = true ∧ i.length = 1 + kinds.length

end Sys2Proof.Laws.EncodedShape

namespace Sys2Proof

/-- A dest and two sources: the shape of format F3. -/
theorem operandCellsOk_dss (d : RegIndex) (a b : Source) :
    operandCellsOk [.dest, .source, .source] [registerCell d, sourceCell a, sourceCell b] = true := by
  simp [operandCellsOk, operandCellOk_registerCell, operandCellOk_sourceCell]

theorem operandCellsOk_ds (d : RegIndex) (a : Source) :
    operandCellsOk [.dest, .source] [registerCell d, sourceCell a] = true := by
  simp [operandCellsOk, operandCellOk_registerCell, operandCellOk_sourceCell]

theorem operandCellsOk_ss (a b : Source) :
    operandCellsOk [.source, .source] [sourceCell a, sourceCell b] = true := by
  simp [operandCellsOk, operandCellOk_sourceCell]

theorem operandCellsOk_d (d : RegIndex) : operandCellsOk [.dest] [registerCell d] = true := by
  simp [operandCellsOk, operandCellOk_registerCell]

theorem operandCellsOk_s (a : Source) : operandCellsOk [.source] [sourceCell a] = true := by
  simp [operandCellsOk, operandCellOk_sourceCell]

end Sys2Proof

theorem Sys2Proof.Laws.EncodedShape.halt :
    Sys2Proof.Laws.EncodedShape.Statement Sys2Proof.Instr.halt :=
  ⟨_, rfl, rfl, rfl⟩

theorem Sys2Proof.Laws.EncodedShape.set (d : RegIndex) (a : Source) :
    Sys2Proof.Laws.EncodedShape.Statement (Sys2Proof.Instr.set d a) :=
  ⟨_, rfl, Sys2Proof.operandCellsOk_ds d a, rfl⟩

theorem Sys2Proof.Laws.EncodedShape.push (a : Source) :
    Sys2Proof.Laws.EncodedShape.Statement (Sys2Proof.Instr.push a) :=
  ⟨_, rfl, Sys2Proof.operandCellsOk_s a, rfl⟩

theorem Sys2Proof.Laws.EncodedShape.pop (d : RegIndex) :
    Sys2Proof.Laws.EncodedShape.Statement (Sys2Proof.Instr.pop d) :=
  ⟨_, rfl, Sys2Proof.operandCellsOk_d d, rfl⟩

theorem Sys2Proof.Laws.EncodedShape.eq (d : RegIndex) (a b : Source) :
    Sys2Proof.Laws.EncodedShape.Statement (Sys2Proof.Instr.eq d a b) :=
  ⟨_, rfl, Sys2Proof.operandCellsOk_dss d a b, rfl⟩

theorem Sys2Proof.Laws.EncodedShape.gt (d : RegIndex) (a b : Source) :
    Sys2Proof.Laws.EncodedShape.Statement (Sys2Proof.Instr.gt d a b) :=
  ⟨_, rfl, Sys2Proof.operandCellsOk_dss d a b, rfl⟩

theorem Sys2Proof.Laws.EncodedShape.jmp (t : Source) :
    Sys2Proof.Laws.EncodedShape.Statement (Sys2Proof.Instr.jmp t) :=
  ⟨_, rfl, Sys2Proof.operandCellsOk_s t, rfl⟩

theorem Sys2Proof.Laws.EncodedShape.jt (c t : Source) :
    Sys2Proof.Laws.EncodedShape.Statement (Sys2Proof.Instr.jt c t) :=
  ⟨_, rfl, Sys2Proof.operandCellsOk_ss c t, rfl⟩

theorem Sys2Proof.Laws.EncodedShape.jf (c t : Source) :
    Sys2Proof.Laws.EncodedShape.Statement (Sys2Proof.Instr.jf c t) :=
  ⟨_, rfl, Sys2Proof.operandCellsOk_ss c t, rfl⟩

theorem Sys2Proof.Laws.EncodedShape.add (d : RegIndex) (a b : Source) :
    Sys2Proof.Laws.EncodedShape.Statement (Sys2Proof.Instr.add d a b) :=
  ⟨_, rfl, Sys2Proof.operandCellsOk_dss d a b, rfl⟩

theorem Sys2Proof.Laws.EncodedShape.mult (d : RegIndex) (a b : Source) :
    Sys2Proof.Laws.EncodedShape.Statement (Sys2Proof.Instr.mult d a b) :=
  ⟨_, rfl, Sys2Proof.operandCellsOk_dss d a b, rfl⟩

theorem Sys2Proof.Laws.EncodedShape.mod (d : RegIndex) (a b : Source) :
    Sys2Proof.Laws.EncodedShape.Statement (Sys2Proof.Instr.mod d a b) :=
  ⟨_, rfl, Sys2Proof.operandCellsOk_dss d a b, rfl⟩

theorem Sys2Proof.Laws.EncodedShape.and (d : RegIndex) (a b : Source) :
    Sys2Proof.Laws.EncodedShape.Statement (Sys2Proof.Instr.and d a b) :=
  ⟨_, rfl, Sys2Proof.operandCellsOk_dss d a b, rfl⟩

theorem Sys2Proof.Laws.EncodedShape.or (d : RegIndex) (a b : Source) :
    Sys2Proof.Laws.EncodedShape.Statement (Sys2Proof.Instr.or d a b) :=
  ⟨_, rfl, Sys2Proof.operandCellsOk_dss d a b, rfl⟩

theorem Sys2Proof.Laws.EncodedShape.not (d : RegIndex) (a : Source) :
    Sys2Proof.Laws.EncodedShape.Statement (Sys2Proof.Instr.not d a) :=
  ⟨_, rfl, Sys2Proof.operandCellsOk_ds d a, rfl⟩

theorem Sys2Proof.Laws.EncodedShape.rmem (d : RegIndex) (a : Source) :
    Sys2Proof.Laws.EncodedShape.Statement (Sys2Proof.Instr.rmem d a) :=
  ⟨_, rfl, Sys2Proof.operandCellsOk_ds d a, rfl⟩

theorem Sys2Proof.Laws.EncodedShape.wmem (a v : Source) :
    Sys2Proof.Laws.EncodedShape.Statement (Sys2Proof.Instr.wmem a v) :=
  ⟨_, rfl, Sys2Proof.operandCellsOk_ss a v, rfl⟩

theorem Sys2Proof.Laws.EncodedShape.call (t : Source) :
    Sys2Proof.Laws.EncodedShape.Statement (Sys2Proof.Instr.call t) :=
  ⟨_, rfl, Sys2Proof.operandCellsOk_s t, rfl⟩

theorem Sys2Proof.Laws.EncodedShape.ret :
    Sys2Proof.Laws.EncodedShape.Statement Sys2Proof.Instr.ret :=
  ⟨_, rfl, rfl, rfl⟩

theorem Sys2Proof.Laws.EncodedShape.out (a : Source) :
    Sys2Proof.Laws.EncodedShape.Statement (Sys2Proof.Instr.out a) :=
  ⟨_, rfl, Sys2Proof.operandCellsOk_s a, rfl⟩

theorem Sys2Proof.Laws.EncodedShape.input (d : RegIndex) :
    Sys2Proof.Laws.EncodedShape.Statement (Sys2Proof.Instr.input d) :=
  ⟨_, rfl, Sys2Proof.operandCellsOk_d d, rfl⟩

theorem Sys2Proof.Laws.EncodedShape.noop :
    Sys2Proof.Laws.EncodedShape.Statement Sys2Proof.Instr.noop :=
  ⟨_, rfl, rfl, rfl⟩
end

