-- ==== Sys2Proof/Tests/Slice0.lean ====
section
/-! SUPPORT. The model's own tests: ill-formed terms refused, words of the spec decoded, one step of each
instruction, and a witness for the premises of each statement that has some. Expected values are the spec's
(95_test_vectors.md, its rows named) or worked by hand from the rules named. -/

namespace Sys2Proof.Tests

open Sys2Proof.Machine

/-- The block after reset with an image loaded. -/
def boot (image : List Word) : State := State.reset.withImage image

/-- What `f` reads after one step, if there is a next state. -/
def after {α : Type} (s : State) (f : State → α) : Option α :=
  match step s with
  | .next t => some (f t)
  | _ => none

/-- Where a fault is recorded: the run state, the code, the pc left, and the record's fields. -/
def faultOf (s : State) : RunState × BitVec 3 × Word × Word × BitVec 2 :=
  (s.run, s.faultRec.kind.code, s.pc, s.faultRec.opcode, s.faultRec.nops)


/-! ## Ill-formed terms (30_encoding.md R85, R89) -/

/-- R81 -/
theorem test_illformed_unknown_opcode : cellsWellFormed [22] = false := by decide

/-- R70 -/
theorem test_illformed_empty : cellsWellFormed [] = false := by decide

/-- R73 -/
theorem test_illformed_missing_operand : cellsWellFormed [9, 32768, 1] = false := by decide

/-- R87 -/
theorem test_illformed_extra_cell : cellsWellFormed [21, 0] = false := by decide

/-- R78 -/
theorem test_illformed_literal_dest : cellsWellFormed [1, 5, 1] = false := by decide

/-- R77 -/
theorem test_illformed_dest_past_registers : cellsWellFormed [20, 32776] = false := by decide

/-- R75 -/
theorem test_illformed_invalid_source : cellsWellFormed [2, 32776] = false := by decide

/-- R74, at the edges of each range. -/
theorem test_wellformed_bounds : cellsWellFormed [9, 32775, 32767, 32768] = true := by decide

/-- R89. -/
theorem test_illformed_line_literal_dest : AsmItem.wellFormed (.instr .set [.lit 5, .lit 1]) = false :=
    by decide

/-- R89. -/
theorem test_illformed_line_label_dest : AsmItem.wellFormed (.instr .pop [.label "x"]) = false := by decide

/-- R89. -/
theorem test_illformed_line_large_literal : AsmItem.wellFormed (.instr .push [.lit 32768]) = false :=
    by decide

/-- R89. -/
theorem test_illformed_line_ninth_register : AsmItem.wellFormed (.instr .push [.reg 8]) = false := by decide

/-- R89. -/
theorem test_illformed_line_ninth_register_dest : AsmItem.wellFormed (.instr .pop [.reg 8]) = false :=
    by decide

/-- R88. -/
theorem test_illformed_line_operand_count : AsmItem.wellFormed (.instr .add [.reg 0, .lit 1]) = false :=
    by decide

/-- R88. -/
theorem test_illformed_line_word_too_wide : AsmItem.wellFormed (.word 65536) = false := by decide

/-! ## Decoding: a word written out from R82 for every constructor -/

theorem test_decode_halt : decode [0] = .instr .halt [] := by decide

theorem test_decode_set : decode [1, 32770, 1234] = .instr (.set 2 (.lit 1234)) [] := by decide

theorem test_decode_push : decode [2, 32775] = .instr (.push (.reg 7)) [] := by decide

theorem test_decode_pop : decode [3, 32770] = .instr (.pop 2) [] := by decide

theorem test_decode_eq : decode [4, 32768, 32769, 5] = .instr (.eq 0 (.reg 1) (.lit 5)) [] := by decide

theorem test_decode_gt : decode [5, 32775, 2, 32771] = .instr (.gt 7 (.lit 2) (.reg 3)) [] := by decide

theorem test_decode_jmp : decode [6, 10] = .instr (.jmp (.lit 10)) [] := by decide

theorem test_decode_jt : decode [7, 32768, 3] = .instr (.jt (.reg 0) (.lit 3)) [] := by decide

theorem test_decode_jf : decode [8, 32768, 10] = .instr (.jf (.reg 0) (.lit 10)) [] := by decide

theorem test_decode_add : decode [9, 32768, 32769, 4] = .instr (.add 0 (.reg 1) (.lit 4)) [] := by decide

theorem test_decode_mult : decode [10, 32768, 3, 5] = .instr (.mult 0 (.lit 3) (.lit 5)) [] := by decide

theorem test_decode_mod : decode [11, 32769, 32768, 32769] = .instr (.mod 1 (.reg 0) (.reg 1)) [] := by decide

theorem test_decode_and : decode [12, 32768, 12, 10] = .instr (.and 0 (.lit 12) (.lit 10)) [] := by decide

theorem test_decode_or : decode [13, 32768, 12, 10] = .instr (.or 0 (.lit 12) (.lit 10)) [] := by decide

theorem test_decode_not : decode [14, 32768, 21845] = .instr (.not 0 (.lit 21845)) [] := by decide

theorem test_decode_rmem : decode [15, 32768, 7] = .instr (.rmem 0 (.lit 7)) [] := by decide

theorem test_decode_wmem : decode [16, 7, 32769] = .instr (.wmem (.lit 7) (.reg 1)) [] := by decide

theorem test_decode_call : decode [17, 8] = .instr (.call (.lit 8)) [] := by decide

theorem test_decode_ret : decode [18] = .instr .ret [] := by decide

theorem test_decode_out : decode [19, 65] = .instr (.out (.lit 65)) [] := by decide

theorem test_decode_input : decode [20, 32771] = .instr (.input 3) [] := by decide

theorem test_decode_noop : decode [21] = .instr .noop [] := by decide

/-- W9. -/
theorem test_decode_rejects_opcode_22 : decode [22, 0] = .failed (.unknownOpcode 22) := by decide

/-- V-DEC-1. -/
theorem test_decode_rejects_literal_dest : decode [9, 5, 40000, 32769] =
    .failed (.invalidDestination 9 [5]) := by decide

/-- V-DEC-2. -/
theorem test_decode_rejects_invalid_source : decode [9, 32768, 40000, 0] =
    .failed (.invalidOperand 9 [32768, 40000]) := by decide

/-- V-DEC-3. -/
theorem test_decode_runs_out : decode [9, 32768] = .failed (.noOperandCell 9 [32768]) := by decide

/-- W7's first instruction, its second cell in bits 31..16 and so on. -/
theorem test_table_word : decodeTableWord 64 (9 + 32768 * 65536 + 32769 * 4294967296 + 4 * 281474976710656) =
    some (.add 0 (.reg 1) (.lit 4)) := by decide

/-- `push` of zeros is `push 0`; `pop` of zeros names no register (R77). -/
theorem test_table_word_zero_operands : decodeTableWord 16 2 = some (.push (.lit 0)) ∧ decodeTableWord 16 3 =
    none := by decide

/-- R168: `noop` placed at the pc. -/
theorem test_fetch_word_runs : after (State.reset.withFetchWord 16 21) (fun t => (t.pc, t.run)) =
    some (1, .running) := by decide

/-! ## One step of each instruction (95_test_vectors.md) -/

/-- V-CF-1. -/
theorem test_halt : after { boot [0, 0, 0, 0, 0, 0, 0] with pc := 6 } (fun t => (t.run, t.pc)) =
    some (.halted, 7) := by decide

/-- V-STK-1. -/
theorem test_set : after ((boot [1, 32771, 32773]).setReg 5 9) (fun t => (t.reg 3, t.pc)) = some (9, 3) :=
    by decide

/-- V-STK-7. -/
theorem test_push : after ((boot [2, 32769]).setReg 1 77) (fun t => (t.stack, t.pc)) = some ([77], 2) :=
    by decide

/-- V-STK-9. -/
theorem test_push_overflow :
    after { boot [2, 3] with stackDepth := some 2, stack := [1, 2] } (fun t => (faultOf t, t.stack)) =
    some ((.faulted, 7, 0, 2, 1), [1, 2]) := by decide

/-- V-STK-3. -/
theorem test_pop : after { boot [3, 32768] with stack := [7, 9] } (fun t => (t.reg 0, t.stack)) =
    some (9, [7]) := by decide

/-- V-STK-8. -/
theorem test_pop_truncates :
    after { (boot [3, 32768]).setReg 0 5 with stack := [32768] } (fun t => (t.reg 0, t.stack)) =
    some (0, []) := by decide

/-- V-ALU-E1. -/
theorem test_eq_equal : after (boot [4, 32768, 3, 3]) (fun t => t.reg 0) = some 1 := by decide

/-- V-ALU-E2. -/
theorem test_eq_different : after ((boot [4, 32768, 3, 4]).setReg 0 9) (fun t => t.reg 0) = some 0 :=
    by decide

/-- V-ALU-G4. -/
theorem test_gt_unsigned : after (boot [5, 32768, 32767, 0]) (fun t => t.reg 0) = some 1 := by decide

/-- V-ALU-G2. -/
theorem test_gt_equal : after ((boot [5, 32768, 3, 3]).setReg 0 9) (fun t => t.reg 0) = some 0 := by decide

/-- V-CF-3. -/
theorem test_jmp_register : after ((boot [6, 32771]).setReg 3 20) (fun t => t.pc) = some 20 := by decide

/-- V-CF-4. -/
theorem test_jt_taken :
    after ({ boot [0, 0, 0, 0, 0, 7, 32768, 3] with pc := 5 }.setReg 0 4) (fun t => t.pc) = some 3 :=
    by decide

/-- V-CF-5. -/
theorem test_jt_not_taken : after { boot [0, 0, 0, 0, 0, 7, 32768, 3] with pc := 5 } (fun t => t.pc) =
    some 8 := by decide

/-- V-CF-6. -/
theorem test_jf_taken : after { boot [0, 0, 0, 0, 0, 8, 32768, 3] with pc := 5 } (fun t => t.pc) =
    some 3 := by decide

/-- V-CF-7. -/
theorem test_jf_not_taken : after ((boot [8, 32768, 10]).setReg 0 4) (fun t => t.pc) = some 3 := by decide

/-- V-ALU-A3. -/
theorem test_add_wraps : after (boot [9, 32768, 32767, 1]) (fun t => (t.reg 0, t.pc)) = some (0, 4) :=
    by decide

/-- V-ALU-S1. -/
theorem test_add_source_is_dest : after ((boot [9, 32768, 32768, 32768]).setReg 0 5) (fun t => t.reg 0) =
    some 10 := by decide

/-- V-ALU-X2. -/
theorem test_mult_wide_product : after (boot [10, 32768, 32767, 32767]) (fun t => t.reg 0) = some 1 :=
    by decide

/-- V-ALU-X5. -/
theorem test_mult_wraps : after (boot [10, 32768, 182, 182]) (fun t => t.reg 0) = some 356 := by decide

/-- V-ALU-M1. -/
theorem test_mod : after (boot [11, 32768, 17, 5]) (fun t => t.reg 0) = some 2 := by decide

/-- V-ALU-M5, V-DEC-6. -/
theorem test_mod_by_zero :
    after ((boot [11, 32768, 9, 0]).setReg 0 6) (fun t => (faultOf t, t.reg 0, t.faultRec.operand0,
    t.faultRec.operand1)) = some ((.faulted, 5, 0, 11, 3), 6, 32768, 9) := by decide

/-- V-ALU-N2. -/
theorem test_and : after (boot [12, 32768, 32767, 21845]) (fun t => t.reg 0) = some 21845 := by decide

/-- V-ALU-O2. -/
theorem test_or : after (boot [13, 32768, 16384, 16383]) (fun t => t.reg 0) = some 32767 := by decide

/-- V-ALU-T3. -/
theorem test_not : after (boot [14, 32768, 21845]) (fun t => (t.reg 0, t.pc)) = some (10922, 3) := by decide

/-- V-ALU-S2. -/
theorem test_not_source_is_dest : after ((boot [14, 32768, 32768]).setReg 0 100) (fun t => t.reg 0) =
    some 32667 := by decide

/-- V-MEM-2, at address 3. -/
theorem test_rmem_raw_cell : after ((boot [15, 32768, 3, 32769]).setReg 1 9) (fun t => t.reg 0) = some 1 :=
    by decide

/-- V-MEM-3. -/
theorem test_rmem_out_of_bounds :
    after (boot [15, 32768, 10, 0, 0, 0, 0, 0, 0, 0]) (fun t => (faultOf t, t.faultRec.access,
    t.faultRec.addr)) = some ((.faulted, 6, 0, 15, 2), .read, 10) := by decide

/-- V-MEM-6, with the next cell kept. -/
theorem test_wmem :
    after ((boot [16, 32769, 32769, 0, 0, 258, 7]).setReg 1 5) (fun t => (t.cell 5, t.cell 6, t.pc)) =
    some (5, 7, 3) := by decide

/-- V-MEM-5. -/
theorem test_wmem_out_of_bounds :
    after (boot [16, 12, 1, 0, 0, 0, 0, 0, 0, 0]) (fun t => (faultOf t, t.faultRec.access,
    t.faultRec.addr)) = some ((.faulted, 6, 0, 16, 2), .write, 12) := by decide

/-- V-CF-8. -/
theorem test_call : after { boot [0, 0, 17, 8] with pc := 2 } (fun t => (t.stack, t.pc)) = some ([4], 8) :=
    by decide

/-- R166 with STACK_DEPTH 0. -/
theorem test_call_overflow :
    after { boot [17, 8] with stackDepth := some 0 } (fun t => (faultOf t, t.stack)) =
    some ((.faulted, 7, 0, 17, 1), []) := by decide

/-- R167: all 16 bits reach the pc. -/
theorem test_ret : after { boot [18] with stack := [7, 32768] } (fun t => (t.stack, t.pc)) =
    some ([7], 32768) := by decide

/-- V-CF-9. -/
theorem test_ret_empty : after (boot [18]) (fun t => faultOf t) = some (.faulted, 4, 0, 18, 0) := by decide

/-- V-IO-2. -/
theorem test_out : after ((boot [19, 32768]).setReg 0 300) (fun t => (t.output, t.pc)) = some ([300], 2) :=
    by decide

/-- V-IO-3, R190. -/
theorem test_out_appends : after { boot [19, 0] with output := [65] } (fun t => t.output) = some [65, 0] :=
    by decide

/-- R195: it retires whatever the answer. -/
theorem test_in_polls_once : after (boot [20, 32768]) (fun t => (t.polls, t.pc, t.run)) =
    some (1, 2, .running) := by decide

/-- V-IO-4 and V-IO-5. -/
theorem test_in_receives : (((boot []).setReg 0 9).receive 0 (some 65)).reg 0 = 65 ∧
    (((boot []).setReg 0 9).receive 0 none).reg 0 = 9 := by decide

/-- V-CF-13. -/
theorem test_noop : after { boot [0, 0, 0, 21] with pc := 3 } (fun t => t.pc) = some 4 := by decide

/-! ## Faults of fetch and decode, and no step -/

/-- V-DEC-5. -/
theorem test_unknown_opcode : after (boot [65535]) (fun t => faultOf t) =
    some (.faulted, 3, 0, 65535, 0) := by decide

/-- V-DEC-1. -/
theorem test_first_bad_operand :
    after (boot [9, 5, 40000, 32769]) (fun t => (faultOf t, t.faultRec.operand0, t.faultRec.operand1)) =
    some ((.faulted, 2, 0, 9, 1), 5, 0) := by decide

/-- V-DEC-2. -/
theorem test_second_bad_operand :
    after (boot [9, 32768, 40000, 0]) (fun t => (faultOf t, t.faultRec.operand1)) =
    some ((.faulted, 1, 0, 9, 2), 40000) := by decide

/-- V-DEC-3. -/
theorem test_operand_past_memory :
    after (boot [9, 32768]) (fun t => (faultOf t, t.faultRec.access, t.faultRec.addr)) =
    some ((.faulted, 6, 0, 9, 1), .fetch, 2) := by decide

/-- V-DEC-4. -/
theorem test_empty_memory : after (boot []) (fun t => (faultOf t, t.faultRec.access, t.faultRec.addr)) =
    some ((.faulted, 6, 0, 0, 0), .fetch, 0) := by decide

/-- V-CF-12, its second step. -/
theorem test_jump_past_memory :
    after { boot [6, 100, 0, 0] with pc := 100 } (fun t => (faultOf t, t.faultRec.pc, t.faultRec.addr)) =
    some ((.faulted, 6, 100, 0, 0), 100, 100) := by decide

/-- V-CF-10. -/
theorem test_target_decoded_when_not_taken : after (boot [7, 0, 40000]) (fun t => faultOf t) =
    some (.faulted, 1, 0, 7, 2) := by decide

/-- V-STK-6. -/
theorem test_dest_before_stack : after (boot [3, 5]) (fun t => faultOf t) = some (.faulted, 2, 0, 3, 1) :=
    by decide

/-- V-IO-6. -/
theorem test_dest_before_poll : after (boot [20, 5]) (fun t => (faultOf t, t.polls)) =
    some ((.faulted, 2, 0, 20, 1), 0) := by decide

/-- R105, R222, R246. -/
theorem test_no_step : step { boot [21] with run := .halted } = .fault .halted ∧
    step { boot [21] with run := .faulted } = .fault .faulted ∧ step { boot [21] with runEnable := false } =
    .fault .paused ∧ step { boot [21] with inReset := true } = .fault .inReset := ⟨rfl, rfl, rfl, rfl⟩

/-! ## The host (2.9 of 95_test_vectors.md) and the assembler -/

/-- The state of V-SNAP-1. -/
def snapState : State :=
  { boot [21] with
    regs := #v[1, 2, 3, 4, 5, 6, 7, 8]
    stack := [5]
    pc := 9
    runEnable := false }

/-- The snapshot of V-SNAP-1. -/
def snap : Snapshot := ⟨[1, 2, 3, 4, 5, 6, 7, 8], [5], 9⟩

/-- V-SNAP-1. -/
theorem test_save : snapState.save = some snap := by decide

/-- V-SNAP-4. -/
theorem test_restore_halted : { boot [21] with run := .halted }.hostMove (.restore snap) =
    .done { snapState with run := .halted, runEnable := true } := by decide

/-- V-SNAP-3. -/
theorem test_restore_refused :
    snapState.hostMove (.restore { snap with registers := [1, 2, 40000, 4, 5, 6, 7, 8] }) =
    .failed snapState := by decide

/-- R57: cell k is byte[2k] + 256 * byte[2k+1]. -/
theorem test_image_bytes : imageOfBytes [9, 0, 0, 128, 255] = none ∧ imageOfBytes [9, 0, 1, 128] =
    some [9, 32769] := by decide

/-- P3, with labels for 7 and 8. -/
theorem test_assemble_p3 : assemble
    [.instr .push [.lit 7], .instr .call [.label "sub"], .instr .pop [.reg 2], .instr .halt [], .label "data",
      .word 1234, .label "sub", .instr .rmem [.reg 0, .label "data"], .instr .wmem [.label "data", .lit 42],
      .instr .ret []] =
    some [2, 7, 17, 8, 3, 32770, 0, 1234, 15, 32768, 7, 16, 7, 42, 18] := by decide

/-- log 15. -/
theorem test_assemble_undefined_label : assemble [.instr .jmp [.label "x"]] = none := by decide

/-! ## Witnesses: states and operands that meet the premises of the statements -/

theorem test_witness_StepRunsTheDecodedInstruction : (boot [21]).Stepping ∧ decode (boot [21]).cellsAtPc =
    .instr .noop [] := by decide

theorem test_witness_DecodedCellsAreTheEncoding : decode [2, 7, 0] = .instr (.push (.lit 7)) [0] := by decide

theorem test_witness_SourceCellsResolveByTheirRange : (32767 : Word).toNat < 32768 ∧ (32768 : Word).toNat =
    32768 + (0 : RegIndex).val ∧ (32775 : Word).toNat = 32768 + (7 : RegIndex).val ∧ 32776 ≤
    (32776 : Word).toNat := by decide

theorem test_witness_DestinationCellsNameARegister : (32775 : Word).toNat = 32768 + (7 : RegIndex).val ∧
    (32767 : Word).toNat < 32768 ∧ 32776 ≤ (32776 : Word).toNat := by decide

theorem test_witness_AssemblerAcceptsExactlyTheDecodableLines :
    (∀ o ∈ [AsmOperand.reg 8, .lit 32767, .lit 32776], (∃ i, o = .reg i ∧ i < 32768) ∨
      (∃ n, o = .lit n ∧ n < 32768) ∨ (∃ n, o = .lit n ∧ 32776 ≤ n ∧ n < 65536)) ∧
    [AsmOperand.reg 8, .lit 32767, .lit 32776].mapM (asmOperandCell []) = some [32776, 32767, 32776] := by
  refine ⟨?_, by decide⟩
  simp

theorem test_witness_FetchPastMemoryFaults_opcode : (boot [21]).Stepping ∧
    { boot [21] with pc := 1 }.Stepping ∧ { boot [21] with pc := 1 }.memWords ≤
    { boot [21] with pc := 1 }.pc.toNat := by decide

theorem test_witness_FetchPastMemoryFaults_operand : (boot [9, 32768]).Stepping ∧
    operandKinds ((boot [9, 32768]).cell 0).toNat = some [.dest, .source, .source] ∧
    (boot [9, 32768]).operandsGood [.dest, .source, .source] 1 ∧ (boot [9, 32768]).memWords ≤
    (boot [9, 32768]).pc.toNat + 1 + 1 := by
  unfold State.operandsGood
  decide

theorem test_witness_UnknownOpcodeFaultsBeforeAnyOperand : (boot [22]).Stepping ∧
    (boot [22]).pc.toNat < (boot [22]).memWords ∧ 22 ≤ ((boot [22]).cell (boot [22]).pc.toNat).toNat :=
    by decide

theorem test_witness_FirstFailingOperandDecidesTheFault_dest : (boot [9, 5, 40000, 32769]).Stepping ∧
    operandKinds ((boot [9, 5, 40000, 32769]).cell 0).toNat = some [.dest, .source, .source] ∧
    [OperandKind.dest, .source, .source][0]? = some .dest ∧
    (boot [9, 5, 40000, 32769]).operandsGood [.dest, .source, .source] 0 ∧
    (boot [9, 5, 40000, 32769]).pc.toNat + 1 + 0 < (boot [9, 5, 40000, 32769]).memWords ∧
    operandCellOk .dest ((boot [9, 5, 40000, 32769]).cell ((boot [9, 5, 40000, 32769]).pc.toNat + 1 + 0)) =
    false := by
  unfold State.operandsGood
  decide

theorem test_witness_FirstFailingOperandDecidesTheFault_source : (boot [9, 32768, 32776, 0]).Stepping ∧
    operandKinds ((boot [9, 32768, 32776, 0]).cell 0).toNat = some [.dest, .source, .source] ∧
    [OperandKind.dest, .source, .source][1]? = some .source ∧
    (boot [9, 32768, 32776, 0]).operandsGood [.dest, .source, .source] 1 ∧
    (boot [9, 32768, 32776, 0]).pc.toNat + 1 + 1 < (boot [9, 32768, 32776, 0]).memWords ∧
    operandCellOk .source ((boot [9, 32768, 32776, 0]).cell ((boot [9, 32768, 32776, 0]).pc.toNat + 1 + 1)) =
    false := by
  unfold State.operandsGood
  decide

theorem test_witness_StepFollowsTheFetchDecodeLoop : (boot [21]).Stepping := by decide

theorem test_witness_FaultsChangeOnlyRunAndRecord : ∃ t, step (boot [22]) = .next t ∧ t.run = .faulted :=
    ⟨_, rfl, rfl⟩

theorem test_witness_InstructionsWriteOnlyTheirRow : ∃ t, exec (.wmem (.lit 0) (.lit 3)) (boot [0]) =
    .next t := ⟨_, rfl⟩

theorem test_witness_PushPushesTheResolvedValue_room :
    { boot [] with stackDepth := some 2, stack := [1] }.HasRoom ∧ (boot []).HasRoom := by
  constructor
  · intro n h
    cases h
    decide
  · nofun

theorem test_witness_PushPushesTheResolvedValue_full :
    { boot [] with stackDepth := some 2, stack := [1, 2] }.IsFull := ⟨2, rfl, by decide⟩

theorem test_witness_PopTakesTheTopEntry : { boot [] with stack := [7, 65535] }.stack = [7] ++ [65535] ∧
    (boot []).stack = [] := by decide

theorem test_witness_PushedValuesPopInReverse : { boot [] with stackDepth := some 3 }.stackFits (0 + [(1 :
    Value), 2, 3].length) = true := by decide

theorem test_witness_ModWritesTheRemainder : ((boot []).value (.lit 1)).toNat ≠ 0 ∧
    ((boot []).value (.lit 0)).toNat = 0 := by decide

theorem test_witness_CallPushesTheReturnAddress : (boot []).HasRoom ∧
    { boot [] with stackDepth := some 0 }.IsFull := ⟨nofun, 0, rfl, by decide⟩

theorem test_witness_RetPopsThePc : { boot [] with stack := [7, 65535] }.stack = [7] ++ [65535] ∧
    (boot []).stack = [] := by decide

theorem test_witness_RetReturnsJustPastTheCall : { boot [] with stackDepth := some 1 }.HasRoom := by
  intro n h
  cases h
  decide

theorem test_witness_RmemReadsTheRawCell : ((boot [0, 0]).value (.lit 1)).toNat < (boot [0, 0]).memWords ∧
    (boot [0, 0]).memWords ≤ ((boot [0, 0]).value (.lit 2)).toNat := by decide

theorem test_witness_WmemWritesOneCell : Memory.wf (boot [0, 7]).mem = true ∧
    ((boot [0, 7]).value (.lit 1)).toNat < (boot [0, 7]).memWords ∧ (boot [0, 7]).memWords ≤
    ((boot [0, 7]).value (.lit 2)).toNat := by decide

theorem test_witness_OnlyWmemAndTheLoadChangeMemory_step : ∃ t, step (boot [16, 3, 42, 0]) = .next t ∧
    Memory.readByte t.mem 6 ≠ Memory.readByte (boot [16, 3, 42, 0]).mem 6 := ⟨_, rfl, by decide⟩

theorem test_witness_OnlyWmemAndTheLoadChangeMemory_move :
    ∃ t, { boot [] with inReset := true }.hostMove (.load [7]) = .done t ∧ t.mem ≠ (boot []).mem :=
    ⟨_, rfl, by decide⟩

theorem test_witness_OnlyADestOperandChangesARegister_step : ∃ t, step (boot [1, 32770, 5]) = .next t ∧
    t.reg 2 ≠ (boot [1, 32770, 5]).reg 2 := ⟨_, rfl, by decide⟩

theorem test_witness_OnlyADestOperandChangesARegister_move :
    (∃ t, { boot [0] with run := .halted }.hostMove (.restore snap) = .done t ∧ t.reg 0 ≠ (boot [0]).reg 0) ∧
    ∃ t, snapState.hostMove .assertReset = .done t ∧ t.reg 0 ≠ snapState.reg 0 :=
    ⟨⟨_, rfl, by decide⟩, _, rfl, by decide⟩

/-- The cell written is fetched as the opcode cell, and as the last operand cell. -/
theorem test_witness_FetchSeesTheCellWmemWrote : ∃ t, Memory.wf (boot [9, 32768, 1, 0]).mem = true ∧
    ((boot [9, 32768, 1, 0]).value (.lit 3)).toNat < (boot [9, 32768, 1, 0]).memWords ∧
    exec (.wmem (.lit 3) (.lit 21)) (boot [9, 32768, 1, 0]) = .next t ∧
    { t with pc := 3 }.cell 3 = t.cell 3 ∧ { t with pc := 0 }.cell 3 = t.cell 3 ∧
    { t with pc := 3 }.memWords = t.memWords ∧ { t with pc := 0 }.memWords = t.memWords ∧
    { t with pc := 3 }.pc.toNat + 0 = ((boot [9, 32768, 1, 0]).value (.lit 3)).toNat ∧
    { t with pc := 0 }.pc.toNat + 3 = ((boot [9, 32768, 1, 0]).value (.lit 3)).toNat :=
    ⟨_, by decide, by decide, rfl, rfl, rfl, rfl, rfl, rfl, rfl⟩

theorem test_witness_NextPcNeverWraps : (boot [2, 7]).Inv ∧ (boot [2, 7]).fetchDecode =
    .instr (.push (.lit 7)) [] := by
  unfold State.Inv
  decide

theorem test_witness_InputIsObservedOnlyByIn :
    ∀ d rest, (boot [21]).fetchDecode ≠ .instr (.input d) rest := by
  intro d rest h
  cases h

theorem test_witness_RunOutcomesAreDistinguishable : (boot [0]).Inv ∧ { boot [0] with run := .halted }.Inv ∧
    { boot [0] with run := .faulted, faultRec := { FaultRecord.clear with kind := .unknownOpcode } }.Inv := by
  unfold State.Inv
  decide

theorem test_witness_OnlyResetLeavesAStoppedRun : { boot [0] with run := .halted }.run ≠ .running ∧
    ∃ t, { boot [0] with run := .halted }.hostMove .assertReset = .done t ∧ t.run ≠ .halted :=
    ⟨by decide, _, rfl, by decide⟩

theorem test_witness_LoadPlacesTheImage : { boot [] with inReset := true }.inReset = true ∧
    (List.replicate 32768 (0 : Word)).length ≤ 32768 ∧ 32768 < (List.replicate 32769 (0 : Word)).length ∧
    (boot []).inReset = false := by
  refine ⟨rfl, ?_, ?_, rfl⟩ <;> simp only [List.length_replicate] <;> decide

theorem test_witness_ImageCellsAreLittleEndian : ([] : List Byte).length % 2 = 0 ∧
    ([1, 128] : List Byte).length % 2 = 0 ∧ imageOfBytes [1, 128] = some [32769] := by decide

theorem test_witness_SnapshotHoldsRegistersStackAndPc : snapState.runEnable = false ∧
    { boot [] with run := .halted }.run = .halted ∧ { boot [] with run := .faulted }.run = .faulted ∧
    (boot []).Stepping := by decide

theorem test_witness_RestoreIsAllOrNothing : ¬ snapState.Stepping ∧ (snap.registers.length = 8 ∧
    (∀ v ∈ snap.registers, v ≤ 32767) ∧ (∀ v ∈ snap.stack, v ≤ 65535) ∧ snap.pc ≤ 65535 ∧
    ∀ n, snapState.stackDepth = some n → snap.stack.length ≤ n) ∧ ¬ { snap with pc := 65536 }.pc ≤ 65535 := by
  refine ⟨by decide, ⟨by decide, by decide, by decide, by decide, nofun⟩, by decide⟩

theorem test_witness_RestoreGivesBackWhatWasSaved : snapState.save = some snap ∧
    snapState.stackFits snapState.stack.length = true ∧ { boot [0] with run := .halted }.stackDepth =
    snapState.stackDepth ∧ ¬ { boot [0] with run := .halted }.Stepping := by decide

theorem test_witness_StepKeepsTheInvariant : (boot [16, 0, 7]).Inv ∧ ∃ t, step (boot [16, 0, 7]) =
    .next t := by
  unfold State.Inv
  exact ⟨by decide, _, rfl⟩

theorem test_witness_HostMovesKeepTheInvariant : { boot [] with inReset := true }.Inv ∧
    ∃ t, { boot [] with inReset := true }.hostMove (.load [7]) = .done t := by
  unfold State.Inv
  exact ⟨by decide, _, rfl⟩

/-- The lines can change: the host pauses the block, and asserts and releases reset. -/
theorem test_witness_OnlyTheHostsOwnMovesChangeItsLines : (∃ t, step (boot [21]) = .next t) ∧
    (∃ t, (boot []).hostMove (.setRunEnable false) = .done t ∧ t.runEnable ≠ (boot []).runEnable) ∧
    (∃ t, (boot []).hostMove .assertReset = .done t ∧ t.inReset ≠ (boot []).inReset) ∧
    ∃ t, { boot [] with inReset := true }.hostMove .releaseReset = .done t ∧ t.inReset ≠ true :=
    ⟨⟨_, rfl⟩, ⟨_, rfl, by decide⟩, ⟨_, rfl, by decide⟩, _, rfl, by decide⟩

/-- The boot order of R246, without a restore, and the first step of the image `halt`, in a block of four stack
entries. -/
theorem test_witness_ReachableStatesMeetTheInvariant : ∃ s, Reachable s ∧ s.memWords = 1 ∧ s.run = .halted ∧
    s.pc = 1 ∧ s.stackDepth = some 4 :=
  ⟨_, (((Reachable.start (some 4)).move .assertReset rfl).move (.load [0]) rfl).move .releaseReset rfl |>.step rfl,
    rfl, rfl, rfl, rfl⟩

end Sys2Proof.Tests
end

namespace Sys2Proof

/-! ## What the decoder reads

One walk through the decoder for both of its answers: the cells of an instruction it gives are that
instruction's encoding, and a failure has fetched no more operand cells than the longest instruction has. -/

/-- The operand cells that a failed decode had fetched (40_fetch_dispatch.md R104). -/
def DecodeFailure.operands : DecodeFailure → List Word
  | .noOpcodeCell | .unknownOpcode _ => []
  | .noOperandCell _ got | .invalidDestination _ got | .invalidOperand _ got => got

/-- `r` is a sound reading of the opcode cell `op`, the operand cells `got` already fetched and the `cells`
after them. -/
def SoundReading (op : Word) (got cells : List Word) : Decoded → Prop
  | .instr i rest => op :: (got ++ cells) = encode i ++ rest
  | .failed why => why.operands.length ≤ 3

theorem soundReading_readDest {op : Word} {got cells : List Word}
    {go : RegIndex → List Word → List Word → Decoded} (hg : got.length < 3)
    (hgo : ∀ d rest, SoundReading op (got ++ [registerCell d]) rest (go d (got ++ [registerCell d]) rest)) :
    SoundReading op got cells (readDest op got cells go) := by
  obtain ⟨-, h⟩ | ⟨raw, rest, -, -, h⟩ | ⟨d, rest, rfl, h⟩ := readDest_cases op got cells go
  · rw [h]
    exact hg.le
  · rw [h]
    simpa [SoundReading, DecodeFailure.operands] using hg
  · rw [h]
    have hd := hgo d rest
    cases hr : go d (got ++ [registerCell d]) rest <;> simpa [SoundReading, hr] using hd

theorem soundReading_readSource {op : Word} {got cells : List Word}
    {go : Source → List Word → List Word → Decoded} (hg : got.length < 3)
    (hgo : ∀ a rest, SoundReading op (got ++ [sourceCell a]) rest (go a (got ++ [sourceCell a]) rest)) :
    SoundReading op got cells (readSource op got cells go) := by
  obtain ⟨-, h⟩ | ⟨raw, rest, -, -, h⟩ | ⟨a, rest, rfl, h⟩ := readSource_cases op got cells go
  · rw [h]
    exact hg.le
  · rw [h]
    simpa [SoundReading, DecodeFailure.operands] using hg
  · rw [h]
    have ha := hgo a rest
    cases hr : go a (got ++ [sourceCell a]) rest <;> simpa [SoundReading, hr] using ha

section
variable {op : Word} (cells : List Word)

theorem soundReading_readS {mk : Source → Instr} (h : ∀ a, encode (mk a) = [op, sourceCell a]) :
    SoundReading op [] cells (readS op cells mk) :=
  soundReading_readSource (by simp) fun a _ => by simp [SoundReading, h]

theorem soundReading_readD {mk : RegIndex → Instr} (h : ∀ d, encode (mk d) = [op, registerCell d]) :
    SoundReading op [] cells (readD op cells mk) :=
  soundReading_readDest (by simp) fun d _ => by simp [SoundReading, h]

theorem soundReading_readSS {mk : Source → Source → Instr}
    (h : ∀ a b, encode (mk a b) = [op, sourceCell a, sourceCell b]) :
    SoundReading op [] cells (readSS op cells mk) :=
  soundReading_readSource (by simp) fun a _ => soundReading_readSource (by simp) fun b _ => by
    simp [SoundReading, h]

theorem soundReading_readDS {mk : RegIndex → Source → Instr}
    (h : ∀ d a, encode (mk d a) = [op, registerCell d, sourceCell a]) :
    SoundReading op [] cells (readDS op cells mk) :=
  soundReading_readDest (by simp) fun d _ => soundReading_readSource (by simp) fun a _ => by
    simp [SoundReading, h]

theorem soundReading_readDSS {mk : RegIndex → Source → Source → Instr}
    (h : ∀ d a b, encode (mk d a b) = [op, registerCell d, sourceCell a, sourceCell b]) :
    SoundReading op [] cells (readDSS op cells mk) :=
  soundReading_readDest (by simp) fun d _ => soundReading_readSource (by simp) fun a _ =>
    soundReading_readSource (by simp) fun b _ => by simp [SoundReading, h]

end

/-- A cell that names an opcode holds the number of its row (30_encoding.md R82). -/
theorem eq_row_of_opcodeOf {w : Word} {o : Opcode} (h : opcodeOf w = some o) : w = BitVec.ofNat 16 o.row := by
  apply BitVec.eq_of_toNat_eq
  unfold opcodeOf at h
  split at h <;> cases h <;> assumption

theorem soundReading_decode (op : Word) (cells : List Word) :
    SoundReading op [] cells (decode (op :: cells)) := by
  cases ho : opcodeOf op with
  | none =>
    have hd : decode (op :: cells) = .failed (.unknownOpcode op) := by simp [decode, ho]
    rw [hd]
    exact Nat.zero_le 3
  | some o =>
    obtain rfl := eq_row_of_opcodeOf ho
    cases o with
    | halt | ret | noop => rfl
    | push | jmp | call | out => exact soundReading_readS cells fun _ => rfl
    | pop | input => exact soundReading_readD cells fun _ => rfl
    | jt | jf | wmem => exact soundReading_readSS cells fun _ _ => rfl
    | set | not | rmem => exact soundReading_readDS cells fun _ _ => rfl
    | eq | gt | add | mult | mod | and | or => exact soundReading_readDSS cells fun _ _ _ => rfl

/-- The cells that decode to an instruction are its encoding and the cells after it (30_encoding.md R86). -/
theorem eq_encode_append_of_decode {cells rest : List Word} {i : Instr} (h : decode cells = .instr i rest) :
    cells = encode i ++ rest := by
  cases cells with
  | nil => cases h
  | cons op cells => simpa [SoundReading, h] using soundReading_decode op cells

/-- A decode that fails has fetched at most three operand cells (30_encoding.md R70). -/
theorem operands_length_le_of_decode {cells : List Word} {why : DecodeFailure} (h : decode cells = .failed why) :
    why.operands.length ≤ 3 := by
  cases cells with
  | nil => cases h; simp [DecodeFailure.operands]
  | cons op cells => simpa [SoundReading, h] using soundReading_decode op cells

end Sys2Proof

namespace Sys2Proof.Machine

/-! ## What executing an instruction can do -/

/-- The kind of a fault, its access and its address fit each other as R200 and R206 of 60_exceptions.md have
them: a fault is named, the access exactly for the out-of-bounds fault, an address only with an access. -/
def FaultFits (kind : FaultKind) (access : AccessKind) (addr : Word) : Prop :=
  kind ≠ .none ∧ (kind = .outOfBounds ↔ access ≠ .none) ∧ (access = .none → addr = 0)

/-- An execute fault other than the out-of-bounds one has no access and no address. -/
theorem FaultFits.noAccess {kind : FaultKind} (hn : kind ≠ .none) (hb : kind ≠ .outOfBounds) :
    FaultFits kind .none 0 :=
  ⟨hn, by simp [hb], fun _ => rfl⟩

theorem FaultFits.access {access : AccessKind} (ha : access ≠ .none) (addr : Word) :
    FaultFits .outOfBounds access addr :=
  ⟨nofun, by simp [ha], fun h => absurd h ha⟩

/-- `t` is `s` after the write of `i`'s row of 40_fetch_dispatch.md R108, the pc not yet moved: at most one
part of the state and a register, as the footprint of `i` allows, a cell that exists, and no push onto a full
stack. -/
inductive RowWrite (i : Instr) (s : State) : State → Prop
  | nothing : RowWrite i s s
  | halt (hf : (footprint i s).run = true) : RowWrite i s s.halt
  | setReg (d : RegIndex) (v : Value) (hf : (footprint i s).reg = some d) : RowWrite i s (s.setReg d v)
  | receive (d : RegIndex) (answer : Option Value) (hf : (footprint i s).reg = some d)
      (hin : (footprint i s).input = true) : RowWrite i s (s.receive d answer)
  | setCell (k : Nat) (w : Word) (hf : (footprint i s).cell = some k) (hk : k < s.memWords) :
      RowWrite i s (s.setCell k w)
  | push (w : Word) (hf : (footprint i s).stack = true) (hroom : s.stackFull = false) : RowWrite i s (s.push w)
  | dropTop (hf : (footprint i s).stack = true) : RowWrite i s s.dropTop
  | popReg (d : RegIndex) (v : Value) (hf : (footprint i s).stack = true) (hd : (footprint i s).reg = some d) :
      RowWrite i s (s.dropTop.setReg d v)
  | emit (v : Value) (hf : (footprint i s).output = true) : RowWrite i s (s.emit v)

/-- What executing `i` in `s` can come to: its row is written and the pc takes a value of its pc column, or one
of its faults is taken (40_fetch_dispatch.md R108 to R110). -/
inductive ExecEffect (i : Instr) (s : State) : State → Prop
  | retires {t : State} {target : Word} (hrow : RowWrite i s t) (hpc : target ∈ pcColumn i s) :
      ExecEffect i s (t.goto target)
  | faults {kind : FaultKind} {access : AccessKind} {addr : Word} (hk : kind ∈ executeFaults i)
      (hfit : FaultFits kind access addr) :
      ExecEffect i s (s.takeFault kind (opcodeCell i) (operandCells i) access addr)

section
variable {s : State}

theorem exec_pop_of_top?_eq_none (h : s.top? = none) (d : RegIndex) :
    exec (.pop d) s = .next (s.takeExecFault (.pop d) .stackUnderflow) := by
  simp only [exec, execPop, h]

theorem exec_pop_of_top?_eq_some {w : Word} (h : s.top? = some w) (d : RegIndex) :
    exec (.pop d) s = .next ((s.dropTop.setRegWord d w).advance 2) := by
  simp only [exec, execPop, h]

theorem exec_ret_of_top?_eq_none (h : s.top? = none) :
    exec .ret s = .next (s.takeExecFault .ret .stackUnderflow) := by
  simp only [exec, execRet, h]

theorem exec_ret_of_top?_eq_some {w : Word} (h : s.top? = some w) : exec .ret s = .next (s.dropTop.goto w) := by
  simp only [exec, execRet, h]

end

/-- Every instruction answers a next state, one of its effects. -/
theorem exec_effect (i : Instr) (s : State) : ∃ t, exec i s = .next t ∧ ExecEffect i s t := by
  cases i with
  | halt => exact ⟨_, rfl, .retires (.halt rfl) (.head _)⟩
  | noop | jmp => exact ⟨_, rfl, .retires .nothing (.head _)⟩
  | set | eq | gt | add | mult | and | or | not => exact ⟨_, rfl, .retires (.setReg _ _ rfl) (.head _)⟩
  | out => exact ⟨_, rfl, .retires (.emit _ rfl) (.head _)⟩
  | input => exact ⟨_, rfl, .retires (.receive _ _ rfl rfl) (.head _)⟩
  | jt c t =>
    refine ⟨_, rfl, ?_⟩
    split
    · exact .retires .nothing (.head _)
    · exact .retires .nothing (.tail _ (.head _))
  | jf c t =>
    refine ⟨_, rfl, ?_⟩
    split
    · exact .retires .nothing (.tail _ (.head _))
    · exact .retires .nothing (.head _)
  | mod d a b =>
    by_cases hb : s.value b = 0
    · exact ⟨_, if_pos hb, .faults (.head _) (.noAccess (by decide) (by decide))⟩
    · exact ⟨_, if_neg hb, .retires (.setReg _ _ rfl) (.head _)⟩
  | push a =>
    cases hfull : s.stackFull with
    | true => exact ⟨_, if_pos hfull, .faults (.head _) (.noAccess (by decide) (by decide))⟩
    | false => exact ⟨_, if_neg (by simp [hfull]), .retires (.push _ rfl hfull) (.head _)⟩
  | call t =>
    cases hfull : s.stackFull with
    | true => exact ⟨_, if_pos hfull, .faults (.head _) (.noAccess (by decide) (by decide))⟩
    | false => exact ⟨_, if_neg (by simp [hfull]), .retires (.push _ rfl hfull) (.head _)⟩
  | pop d =>
    cases htop : s.top? with
    | none => exact ⟨_, exec_pop_of_top?_eq_none htop d, .faults (.head _) (.noAccess (by decide) (by decide))⟩
    | some w => exact ⟨_, exec_pop_of_top?_eq_some htop d, .retires (.popReg _ _ rfl rfl) (.head _)⟩
  | ret =>
    cases htop : s.top? with
    | none => exact ⟨_, exec_ret_of_top?_eq_none htop, .faults (.head _) (.noAccess (by decide) (by decide))⟩
    | some w =>
      have hpc : w ∈ pcColumn .ret s := Option.mem_toList.2 htop
      exact ⟨_, exec_ret_of_top?_eq_some htop, .retires (.dropTop rfl) hpc⟩
  | rmem d a =>
    by_cases ha : s.address a < s.memWords
    · exact ⟨_, if_pos ((s.inBounds_iff _).2 ha), .retires (.setReg _ _ rfl) (.head _)⟩
    · exact ⟨_, if_neg (mt (s.inBounds_iff _).1 ha), .faults (.head _) (.access (by decide) _)⟩
  | wmem a v =>
    by_cases ha : s.address a < s.memWords
    · exact ⟨_, if_pos ((s.inBounds_iff _).2 ha), .retires (.setCell _ _ rfl ha) (.head _)⟩
    · exact ⟨_, if_neg (mt (s.inBounds_iff _).1 ha), .faults (.head _) (.access (by decide) _)⟩

/-- The inversion of an execution. -/
theorem execEffect_of_exec {i : Instr} {s t : State} (h : exec i s = .next t) : ExecEffect i s t := by
  obtain ⟨t', ht', heff⟩ := exec_effect i s
  cases ht'.symm.trans h
  exact heff

/-- A write of the row changes nothing outside the footprint (40_fetch_dispatch.md R108). -/
theorem RowWrite.keepsOutside {i : Instr} {s t : State} (h : RowWrite i s t) :
    KeepsOutside (footprint i s) s t := by
  cases h with
  | nothing => exact .refl _ s
  | setReg d v hf => exact .setReg s v hf
  | setCell k w hf => exact .setCell s w hf
  | halt hf => simp [KeepsOutside, hf]
  | push w hf => simp [KeepsOutside, hf]
  | dropTop hf => simp [KeepsOutside, hf]
  | emit v hf => simp [KeepsOutside, hf]
  | receive d answer hf hin =>
    exact ⟨fun r hr => s.reg_receive_ne answer fun e => hr (by rw [hf, e]), by simp [hin]⟩
  | popReg d v hf hd =>
    exact ⟨fun r hr => s.dropTop.reg_setReg_ne v fun e => hr (by rw [hd, e]), by simp [hf]⟩

/-- The decode fault is a fault entry, and what it records fits. -/
theorem State.takeDecodeFault_eq_takeFault (s : State) (why : DecodeFailure) :
    ∃ kind op access addr, FaultFits kind access addr ∧
      s.takeDecodeFault why = s.takeFault kind op why.operands access addr := by
  cases why with
  | noOpcodeCell => exact ⟨_, _, _, _, .access (by decide) _, rfl⟩
  | noOperandCell => exact ⟨_, _, _, _, .access (by decide) _, rfl⟩
  | unknownOpcode => exact ⟨_, _, _, _, .noAccess (by decide) (by decide), rfl⟩
  | invalidDestination => exact ⟨_, _, _, _, .noAccess (by decide) (by decide), rfl⟩
  | invalidOperand => exact ⟨_, _, _, _, .noAccess (by decide) (by decide), rfl⟩

/-! ## The invariant, update by update -/

section
variable {s : State}

theorem State.Inv.goto (h : s.Inv) (w : Word) : (s.goto w).Inv := h
theorem State.Inv.setReg (h : s.Inv) (d : RegIndex) (v : Value) : (s.setReg d v).Inv := h
theorem State.Inv.receive (h : s.Inv) (d : RegIndex) (a : Option Value) : (s.receive d a).Inv := h
theorem State.Inv.emit (h : s.Inv) (v : Value) : (s.emit v).Inv := h

theorem State.Inv.halt (h : s.Inv) (hrun : s.run ≠ .faulted) : s.halt.Inv := by
  obtain ⟨hwf, hbelow, hlimit, hstack, -, hclear⟩ := h
  exact ⟨hwf, hbelow, hlimit, hstack, nofun, fun _ => hclear hrun⟩

theorem State.Inv.setCell (h : s.Inv) {k : Nat} (hk : k < s.memWords) (w : Word) : (s.setCell k w).Inv := by
  obtain ⟨hwf, hbelow, hrest⟩ := h
  exact ⟨Memory.writeCell_wf k w hwf, Memory.writeCell_below w hk hbelow, hrest⟩

/-- A stack of another length that STACK_DEPTH allows. -/
theorem State.Inv.withStack (h : s.Inv) {ws : List Word} (hfits : s.stackFits ws.length = true) :
    { s with stack := ws }.Inv := by
  obtain ⟨hwf, hbelow, hlimit, -, hrec⟩ := h
  exact ⟨hwf, hbelow, hlimit, hfits, hrec⟩

theorem State.Inv.push (h : s.Inv) (hroom : s.stackFull = false) (w : Word) : (s.push w).Inv := by
  refine h.withStack (s.stackFits_iff _ |>.2 fun n hn => ?_)
  have hlt : ¬ n ≤ s.stack.length := fun hle => by simp [s.stackFull_iff.2 ⟨n, hn, hle⟩] at hroom
  simp
  omega

theorem State.Inv.dropTop (h : s.Inv) : s.dropTop.Inv := by
  refine h.withStack (s.stackFits_iff _ |>.2 fun n hn => ?_)
  obtain ⟨-, -, -, hstack, -⟩ := h
  have hle : s.stack.length ≤ n := s.stackFits_iff _ |>.1 hstack n hn
  simp
  omega

/-- A record is well made where its fault fits and the operand slots past `nops` are zero. -/
theorem FaultRecord.wellMade_iff (r : FaultRecord) :
    r.wellMade = true ↔ FaultFits r.kind r.access r.addr ∧ (r.nops.toNat ≤ 0 → r.operand0 = 0) ∧
      (r.nops.toNat ≤ 1 → r.operand1 = 0) ∧ (r.nops.toNat ≤ 2 → r.operand2 = 0) := by
  simp only [FaultRecord.wellMade, FaultFits, Bool.and_eq_true, Bool.or_eq_true, beq_iff_eq, decide_eq_decide,
    decide_eq_true_eq, ← Nat.not_lt, or_iff_not_imp_left, not_not, ne_eq, and_assoc]

/-- Fault entry writes a well-made record. -/
theorem State.takeFault_wellMade (s : State) {kind : FaultKind} {access : AccessKind} {addr : Word}
    (hfit : FaultFits kind access addr) (op : Word) {l : List Word} (hl : l.length ≤ 3) :
    (s.takeFault kind op l access addr).faultRec.wellMade = true := by
  have hslots : ∀ j, (BitVec.ofNat 2 l.length).toNat ≤ j → l.getD j 0 = 0 := fun j hj => by
    rw [BitVec.toNat_ofNat] at hj
    exact List.getD_eq_default _ _ (by omega)
  exact (FaultRecord.wellMade_iff _).2 ⟨hfit, hslots 0, hslots 1, hslots 2⟩

theorem State.Inv.takeFault (h : s.Inv) {kind : FaultKind} {access : AccessKind} {addr : Word}
    (hfit : FaultFits kind access addr) (op : Word) {l : List Word} (hl : l.length ≤ 3) :
    (s.takeFault kind op l access addr).Inv := by
  obtain ⟨hwf, hbelow, hlimit, hstack, -, -⟩ := h
  exact ⟨hwf, hbelow, hlimit, hstack, fun _ => s.takeFault_wellMade hfit op hl, fun hrun => absurd rfl hrun⟩

theorem RowWrite.inv {i : Instr} {t : State} (h : RowWrite i s t) (hinv : s.Inv) (hrun : s.run ≠ .faulted) :
    t.Inv := by
  cases h with
  | nothing => exact hinv
  | halt => exact hinv.halt hrun
  | setReg d v => exact hinv.setReg d v
  | receive d answer => exact hinv.receive d answer
  | setCell k w _ hk => exact hinv.setCell hk w
  | push w _ hroom => exact hinv.push hroom w
  | dropTop => exact hinv.dropTop
  | popReg d v => exact hinv.dropTop.setReg d v
  | emit v => exact hinv.emit v

theorem ExecEffect.inv {i : Instr} {t : State} (h : ExecEffect i s t) (hinv : s.Inv) (hrun : s.run ≠ .faulted) :
    t.Inv := by
  cases h with
  | retires hrow => exact (hrow.inv hinv hrun).goto _
  | faults _ hfit => exact hinv.takeFault hfit _ (operandCells_length_le i)

end

/-- Settles O52: a step takes a decode fault or has an effect of the decoded instruction, and each keeps the
invariant. -/
theorem stepKeepsTheInvariant : Obligations.StepKeepsTheInvariant := by
  intro s t hinv h
  obtain ⟨hsteps, ⟨why, hwhy, rfl⟩ | ⟨i, rest, -, hexec⟩⟩ := step_cases h
  · obtain ⟨kind, op, access, addr, hfit, heq⟩ := s.takeDecodeFault_eq_takeFault why
    rw [heq]
    exact hinv.takeFault hfit op (operands_length_le_of_decode hwhy)
  · obtain ⟨hrunning, -, -⟩ := s.noStep?_eq_none_iff.1 hsteps
    exact (execEffect_of_exec hexec).inv hinv (by simp [hrunning])

/-! ## Which instruction changes a register -/

/-- The registers that the footprints name are the dest operands of twelve instructions (10_state.md R22). -/
theorem dest_of_footprint_reg {i : Instr} {s : State} {r : RegIndex} (h : (footprint i s).reg = some r) :
    (∃ a, i = .set r a) ∨ i = .pop r ∨ (∃ a b, i = .eq r a b) ∨ (∃ a b, i = .gt r a b) ∨
      (∃ a b, i = .add r a b) ∨ (∃ a b, i = .mult r a b) ∨ (∃ a b, i = .mod r a b) ∨
      (∃ a b, i = .and r a b) ∨ (∃ a b, i = .or r a b) ∨ (∃ a, i = .not r a) ∨
      (∃ a, i = .rmem r a) ∨ i = .input r := by
  cases i <;> simp_all [footprint]

/-- An instruction changes only the register its footprint names. -/
theorem footprint_reg_of_exec {i : Instr} {s t : State} {r : RegIndex} (h : exec i s = .next t)
    (hne : t.reg r ≠ s.reg r) : (footprint i s).reg = some r := by
  cases execEffect_of_exec h with
  | retires hrow =>
    obtain ⟨hreg, -⟩ := hrow.keepsOutside
    exact by_contra fun hr => hne (hreg r hr)
  | faults => exact absurd rfl hne

/-- Settles O38: a fault leaves the registers, an instruction changes only the register of its footprint, and of
the host's moves only reset and a restore write registers. -/
theorem onlyADestOperandChangesARegister : Obligations.OnlyADestOperandChangesARegister := by
  constructor
  · intro s t r h hne
    obtain ⟨-, ⟨why, -, rfl⟩ | ⟨i, rest, hi, hexec⟩⟩ := step_cases h
    · obtain ⟨kind, op, access, addr, -, heq⟩ := s.takeDecodeFault_eq_takeFault why
      rw [heq] at hne
      exact absurd rfl hne
    · exact ⟨i, rest, hi, dest_of_footprint_reg (footprint_reg_of_exec hexec hne)⟩
  · intro s t r m h hne
    obtain ⟨rfl, -⟩ | ⟨image, -, -, -, rfl⟩ | ⟨-, rfl⟩ | ⟨on, -, rfl⟩ | ⟨p, rfl, hquiet, -, -⟩ :=
      State.hostMove_cases h
    · exact .inl rfl
    · exact absurd rfl hne
    · exact absurd rfl hne
    · exact absurd rfl hne
    · exact .inr ⟨p, rfl, s.quiet_iff.1 hquiet⟩

/-! ## The length of the decoded instruction -/

/-- No cell is fetched from past the end of memory (40_fetch_dispatch.md R102). -/
theorem State.add_length_cellsFrom_le {s : State} {n k : Nat} (h : 0 < (s.cellsFrom n k).length) :
    k + (s.cellsFrom n k).length ≤ s.memWords := by
  have hlast := s.cellsFrom_getElem? n k ((s.cellsFrom n k).length - 1)
  rw [List.getElem?_eq_getElem (by omega)] at hlast
  split at hlast
  · omega
  · cases hlast

theorem encode_length (i : Instr) : (encode i).length = i.length := by
  simp [encode, Instr.length, Nat.add_comm]

/-- A decoded instruction lies within memory. -/
theorem State.pc_add_length_le {s : State} {i : Instr} {rest : List Word} (h : s.fetchDecode = .instr i rest) :
    s.pc.toNat + i.length ≤ s.memWords := by
  have hlen : s.cellsAtPc.length = i.length + rest.length := by
    rw [eq_encode_append_of_decode h, List.length_append, encode_length]
  have hpos : 0 < i.length := by simp [Instr.length]
  have hmem : s.pc.toNat + s.cellsAtPc.length ≤ s.memWords := State.add_length_cellsFrom_le (by
    change 0 < s.cellsAtPc.length
    omega)
  omega

/-- Where the address past `n` cells is below 65536, the next pc is that address. -/
theorem State.nextPc_toNat {s : State} {n : Nat} (h : s.pc.toNat + n < 65536) :
    (s.nextPc n).toNat = s.pc.toNat + n := by
  rw [State.nextPc, BitVec.toNat_add, BitVec.toNat_ofNat]
  omega

/-- Settles O40: the instruction lies within memory, which has at most 32768 cells. -/
theorem nextPcNeverWraps : Obligations.NextPcNeverWraps := by
  intro s i rest hinv h
  have hmem := State.pc_add_length_le h
  have hlimit : s.memWords ≤ 32768 := by
    obtain ⟨-, -, hlimit, -⟩ := hinv
    exact hlimit
  have hnext := s.nextPc_toNat (n := i.length) (by omega)
  exact ⟨hmem, hnext, by omega⟩

/-! ## The input position -/

/-- The state at another position of the input. -/
def State.withPolls (s : State) (n : Nat) : State := { s with polls := n }

/-- The same answer at another position of the input. -/
def outcomeWithPolls (n : Nat) : Host.Outcome State Fault Refusal → Host.Outcome State Fault Refusal
  | .next t => .next (t.withPolls n)
  | .fault r => .fault r
  | .refused r => .refused r

@[simp] theorem State.value_withPolls (s : State) (n : Nat) (a : Source) :
    (s.withPolls n).value a = s.value a := by
  cases a <;> rfl

@[simp] theorem State.word_withPolls (s : State) (n : Nat) (a : Source) :
    (s.withPolls n).word a = s.word a := by
  simp [State.word]

@[simp] theorem State.address_withPolls (s : State) (n : Nat) (a : Source) :
    (s.withPolls n).address a = s.address a := by
  simp [State.address]

@[simp] theorem State.holds_withPolls (s : State) (n : Nat) (c : Source) :
    (s.withPolls n).holds c = s.holds c := by
  simp [State.holds]

@[simp] theorem State.stackFull_withPolls (s : State) (n : Nat) :
    (s.withPolls n).stackFull = s.stackFull := rfl

@[simp] theorem State.top?_withPolls (s : State) (n : Nat) : (s.withPolls n).top? = s.top? := rfl

@[simp] theorem State.inBounds_withPolls (s : State) (n k : Nat) :
    (s.withPolls n).inBounds k = s.inBounds k := rfl

@[simp] theorem State.cell_withPolls (s : State) (n k : Nat) : (s.withPolls n).cell k = s.cell k := rfl

/-- Every instruction but `in` does the same at every position of the input. -/
theorem exec_withPolls {i : Instr} (hi : ∀ d, i ≠ .input d) (s : State) (n : Nat) :
    exec i (s.withPolls n) = outcomeWithPolls n (exec i s) := by
  cases i with
  | input d => exact absurd rfl (hi d)
  | halt | noop => rfl
  | set | eq | gt | jmp | add | mult | and | or | not | out =>
    simp only [exec, execSet, execEq, execGt, execJmp, execAdd, execMult, execAnd, execOr, execNot, execOut,
      State.value_withPolls, State.word_withPolls]
    rfl
  | push | pop | jt | jf | mod | rmem | wmem | call | ret =>
    simp only [exec, execPush, execPop, execJt, execJf, execMod, execRmem, execWmem, execCall, execRet,
      State.value_withPolls, State.word_withPolls, State.address_withPolls, State.holds_withPolls,
      State.stackFull_withPolls, State.top?_withPolls, State.inBounds_withPolls, State.cell_withPolls]
    split <;> rfl

theorem State.fetchDecode_withPolls (s : State) (n : Nat) : (s.withPolls n).fetchDecode = s.fetchDecode :=
  congrArg decode (State.cellsFrom_congr rfl rfl _ _)

theorem State.takeDecodeFault_withPolls (s : State) (n : Nat) (why : DecodeFailure) :
    (s.withPolls n).takeDecodeFault why = (s.takeDecodeFault why).withPolls n := by
  cases why <;> rfl

/-- Settles O41: fetch, decode and fault entry do not look at the input, and no instruction but `in` does. -/
theorem inputIsObservedOnlyByIn : Obligations.InputIsObservedOnlyByIn := by
  intro s n hin
  have hstep : step (s.withPolls n) = outcomeWithPolls n (step s) := by
    have hno : (s.withPolls n).noStep? = s.noStep? := rfl
    unfold step
    rw [hno, s.fetchDecode_withPolls]
    cases s.noStep? with
    | some why => rfl
    | none =>
      cases hd : s.fetchDecode with
      | failed why => exact congrArg Host.Outcome.next (s.takeDecodeFault_withPolls n why)
      | instr i rest => exact exec_withPolls (fun d hi => hin d rest (hi ▸ hd)) s n
  change step (s.withPolls n) = _
  rw [hstep]
  cases step s <;> rfl

/-! ## Reset -/

/-- Every register of the reset state is 0 (70_reset_and_hazards.md R240). -/
@[simp] theorem State.reg_reset (r : RegIndex) : State.reset.reg r = 0 := by
  simp [State.reg, State.reset]

/-- Settles O43: the values of `State.reset`, field by field. -/
theorem resetStateHoldsTheSpecsValues : Obligations.ResetStateHoldsTheSpecsValues :=
  ⟨State.reg_reset, rfl, rfl, rfl, rfl, rfl⟩

end Sys2Proof.Machine

namespace Sys2Proof.Machine

/-! ## Which instruction changes memory -/

/-- The only row of 40_fetch_dispatch.md R108 with a cell is that of `wmem`, at its resolved address. -/
theorem wmem_of_footprint_cell {i : Instr} {s : State} {k : Nat} (h : (footprint i s).cell = some k) :
    ∃ x v, i = .wmem x v ∧ s.address x = k := by
  cases i with
  | wmem x v => exact ⟨x, v, rfl, Option.some.inj h⟩
  | _ => cases h

/-- An instruction changes only the bytes of the cell its footprint names. -/
theorem footprint_cell_of_exec {i : Instr} {s t : State} {a : Nat} (h : exec i s = .next t)
    (hne : Memory.readByte t.mem a ≠ Memory.readByte s.mem a) :
    ∃ k, (footprint i s).cell = some k ∧ (a = 2 * k ∨ a = 2 * k + 1) := by
  cases execEffect_of_exec h with
  | retires hrow =>
    obtain ⟨-, hbyte, -⟩ := hrow.keepsOutside
    have hspares : ¬ (footprint i s).sparesByte a := fun ha => hne (hbyte a ha)
    simpa only [Footprint.sparesByte, not_forall, ne_eq, ← not_or, not_not, exists_prop] using hspares
  | faults => exact absurd rfl hne

/-- Settles O37: a fault leaves memory, an instruction changes only the cell of its footprint, which only `wmem`
has, and of the host's moves only the load writes memory. -/
theorem onlyWmemAndTheLoadChangeMemory : Obligations.OnlyWmemAndTheLoadChangeMemory := by
  constructor
  · intro s t a h hne
    obtain ⟨-, ⟨why, -, rfl⟩ | ⟨i, rest, hi, hexec⟩⟩ := step_cases h
    · obtain ⟨kind, op, access, addr, -, heq⟩ := s.takeDecodeFault_eq_takeFault why
      rw [heq] at hne
      exact absurd rfl hne
    · obtain ⟨k, hk, ha⟩ := footprint_cell_of_exec hexec hne
      obtain ⟨x, v, rfl, rfl⟩ := wmem_of_footprint_cell hk
      exact ⟨x, v, rest, hi, ha⟩
  · intro s t m h hne
    obtain ⟨-, rfl⟩ | ⟨image, rfl, hreset, -, -⟩ | ⟨-, rfl⟩ | ⟨on, -, rfl⟩ | ⟨p, -, -, -, rfl⟩ :=
      State.hostMove_cases h
    · exact absurd rfl hne
    · exact ⟨image, rfl, hreset⟩
    · exact absurd rfl hne
    · exact absurd rfl hne
    · exact absurd rfl hne

/-! ## The cell that `wmem` wrote -/

/-- `wmem` within memory stores its cell and retires (44_memory_access.md R181). -/
theorem exec_wmem_of_lt {s : State} {a : Source} (h : s.address a < s.memWords) (v : Source) :
    exec (.wmem a v) s = .next ((s.setCell (s.address a) (s.word v)).advance 3) :=
  if_pos ((s.inBounds_iff _).2 h)

/-- The cell written reads as the value written, in canonical memory (20_memory.md R56). -/
theorem State.cell_setCell_same {s : State} (h : Memory.wf s.mem = true) (k : Nat) (w : Word) :
    (s.setCell k w).cell k = w :=
  Memory.readCell_writeCell_same k w h

@[simp] theorem State.cell_advance (s : State) (n k : Nat) : (s.advance n).cell k = s.cell k := rfl

/-- The fetch unit reaches each of four cells from the pc that exists (40_fetch_dispatch.md R101, R102). -/
theorem State.cellsAtPc_getElem?_of_lt {s : State} {n : Nat} (hn : n < 4) (h : s.pc.toNat + n < s.memWords) :
    s.cellsAtPc[n]? = some (s.cell (s.pc.toNat + n)) :=
  (s.cellsFrom_getElem? 4 _ n).trans (if_pos ⟨hn, h⟩)

/-- Settles O39: the cell fetched is the cell of memory, which holds what `wmem` stored. -/
theorem fetchSeesTheCellWmemWrote : Obligations.FetchSeesTheCellWmemWrote := by
  intro s t u a v n hwf hlt hexec hcell hwords hn hpc
  cases (exec_wmem_of_lt hlt v).symm.trans hexec
  have hfetch : u.cellsAtPc[n]? = some (u.cell (s.value a).toNat) := by
    rw [← hpc]
    refine State.cellsAtPc_getElem?_of_lt hn ?_
    rw [hpc, hwords]
    exact hlt
  have hwrote : u.cell (s.value a).toNat = s.word v := by
    rw [hcell, State.cell_advance]
    exact State.cell_setCell_same hwf _ _
  exact ⟨_, hfetch, by rw [hwrote, State.word_toNat]⟩

/-! ## The image of a byte stream -/

/-- A cell made of two bytes is the low byte plus 256 times the high one (20_memory.md R57). -/
theorem toNat_hi_append_lo (hi lo : Byte) : (hi ++ lo : Word).toNat = lo.toNat + 256 * hi.toNat := by
  rw [BitVec.toNat_append, ← Nat.shiftLeft_add_eq_or_of_lt lo.isLt, Nat.shiftLeft_eq]
  omega

/-- An image of a stream that begins with two bytes is their cell and the image of the rest. -/
theorem imageOfBytes_cons_cons_eq_some_iff {lo hi : Byte} {bytes : List Byte} {image : List Word} :
    imageOfBytes (lo :: hi :: bytes) = some image ↔
      ∃ ws, imageOfBytes bytes = some ws ∧ (hi ++ lo) :: ws = image :=
  Option.map_eq_some_iff

/-- A byte stream of even length makes an image. -/
theorem exists_imageOfBytes_of_even :
    ∀ {bytes : List Byte}, bytes.length % 2 = 0 → ∃ image, imageOfBytes bytes = some image
  | [], _ => ⟨[], rfl⟩
  | [_], h => by simp at h
  | lo :: hi :: bytes, h => by
    obtain ⟨ws, hws⟩ := exists_imageOfBytes_of_even (bytes := bytes) (by
      simp only [List.length_cons] at h
      omega)
    exact ⟨_, imageOfBytes_cons_cons_eq_some_iff.2 ⟨ws, hws, rfl⟩⟩

/-- An image has one cell for each two bytes. -/
theorem length_eq_of_imageOfBytes :
    ∀ {bytes : List Byte} {image : List Word}, imageOfBytes bytes = some image →
      bytes.length = 2 * image.length
  | [], _, h => by cases h; rfl
  | [_], _, h => by cases h
  | lo :: hi :: bytes, _, h => by
    obtain ⟨ws, hws, rfl⟩ := imageOfBytes_cons_cons_eq_some_iff.1 h
    have ih := length_eq_of_imageOfBytes hws
    simp only [List.length_cons]
    omega

/-- Cell `k` of an image is byte `2k` below byte `2k + 1`. -/
theorem bytes_of_imageOfBytes :
    ∀ {bytes : List Byte} {image : List Word}, imageOfBytes bytes = some image →
      ∀ {k : Nat} {w : Word}, image[k]? = some w →
        ∃ lo hi, bytes[2 * k]? = some lo ∧ bytes[2 * k + 1]? = some hi ∧ w = hi ++ lo
  | [], _, h, _, _, hw => by cases h; cases hw
  | [_], _, h, _, _, _ => by cases h
  | lo :: hi :: bytes, _, h, k, w, hw => by
    obtain ⟨ws, hws, rfl⟩ := imageOfBytes_cons_cons_eq_some_iff.1 h
    cases k with
    | zero => exact ⟨lo, hi, rfl, rfl, (Option.some.inj hw).symm⟩
    | succ k => exact bytes_of_imageOfBytes hws hw

/-- Settles O47: two bytes make one cell, so induction two bytes at a time gives the length and the bytes of
each cell. -/
theorem imageCellsAreLittleEndian : Obligations.ImageCellsAreLittleEndian := by
  refine ⟨fun _ => exists_imageOfBytes_of_even, fun bytes image h => ⟨length_eq_of_imageOfBytes h, ?_⟩⟩
  intro k w hw
  obtain ⟨lo, hi, hlo, hhi, rfl⟩ := bytes_of_imageOfBytes h hw
  exact ⟨lo, hi, hlo, hhi, toNat_hi_append_lo hi lo⟩

end Sys2Proof.Machine

namespace Sys2Proof

open Machine

/-! ## The ranges of operand cells (30_encoding.md R74 to R77) -/

theorem eq_registerCell_of_toNat {w : Word} {r : RegIndex} (h : w.toNat = 32768 + r.val) : w = registerCell r :=
  BitVec.eq_of_toNat_eq (by rw [h, registerCell_toNat])

theorem sourceOf_of_lt {w : Word} (h : w.toNat < 32768) : sourceOf w = some (.lit (w.setWidth 15)) := by
  rw [sourceOf, if_pos h]

theorem sourceOf_of_le {w : Word} (h : 32776 ≤ w.toNat) : sourceOf w = none := by
  rw [sourceOf, if_neg (by omega), dif_neg (by omega)]

theorem asRegisterIndex_of_lt_or_le {w : Word} (h : w.toNat < 32768 ∨ 32776 ≤ w.toNat) :
    asRegisterIndex w = none := by
  rw [asRegisterIndex, dif_neg (by omega)]

/-! ## Well-formed cells and encodings (30_encoding.md R85, R86) -/

theorem operandCellsOk_nil_iff {ws : List Word} : operandCellsOk [] ws = true ↔ ws = [] := by
  cases ws <;> simp [operandCellsOk]

theorem operandCellsOk_cons_cons_iff {k : OperandKind} {ks : List OperandKind} {w : Word} {ws : List Word} :
    operandCellsOk (k :: ks) (w :: ws) = true ↔ operandCellOk k w = true ∧ operandCellsOk ks ws = true := by
  rw [operandCellsOk, Bool.and_eq_true]

/-- Where the cells left are well formed for no kind at all, a reading that ends here has used every cell. -/
theorem exists_instr_of_operandCellsOk_nil (i : Instr) {ws : List Word} (h : operandCellsOk [] ws = true) :
    ∃ j, Decoded.instr i ws = .instr j [] :=
  ⟨i, by rw [operandCellsOk_nil_iff.1 h]⟩

theorem exists_readDest_of_operandCellsOk {op : Word} {got cells : List Word} {ks : List OperandKind}
    {go : RegIndex → List Word → List Word → Decoded} (h : operandCellsOk (.dest :: ks) cells = true)
    (hgo : ∀ d got rest, operandCellsOk ks rest = true → ∃ i, go d got rest = .instr i []) :
    ∃ i, readDest op got cells go = .instr i [] := by
  obtain ⟨rfl, -⟩ | ⟨raw, rest, rfl, hbad, -⟩ | ⟨d, rest, rfl, hread⟩ := readDest_cases op got cells go
  · cases h
  · simp [operandCellsOk_cons_cons_iff, hbad] at h
  · rw [hread]
    exact hgo d _ rest (operandCellsOk_cons_cons_iff.1 h).2

theorem exists_readSource_of_operandCellsOk {op : Word} {got cells : List Word} {ks : List OperandKind}
    {go : Source → List Word → List Word → Decoded} (h : operandCellsOk (.source :: ks) cells = true)
    (hgo : ∀ a got rest, operandCellsOk ks rest = true → ∃ i, go a got rest = .instr i []) :
    ∃ i, readSource op got cells go = .instr i [] := by
  obtain ⟨rfl, -⟩ | ⟨raw, rest, rfl, hbad, -⟩ | ⟨a, rest, rfl, hread⟩ := readSource_cases op got cells go
  · cases h
  · simp [operandCellsOk_cons_cons_iff, hbad] at h
  · rw [hread]
    exact hgo a _ rest (operandCellsOk_cons_cons_iff.1 h).2

section
variable {op : Word} {cells : List Word}

theorem exists_readS_of_operandCellsOk {mk : Source → Instr} (h : operandCellsOk [.source] cells = true) :
    ∃ i, readS op cells mk = .instr i [] :=
  exists_readSource_of_operandCellsOk h fun _ _ _ => exists_instr_of_operandCellsOk_nil _

theorem exists_readD_of_operandCellsOk {mk : RegIndex → Instr} (h : operandCellsOk [.dest] cells = true) :
    ∃ i, readD op cells mk = .instr i [] :=
  exists_readDest_of_operandCellsOk h fun _ _ _ => exists_instr_of_operandCellsOk_nil _

theorem exists_readSS_of_operandCellsOk {mk : Source → Source → Instr}
    (h : operandCellsOk [.source, .source] cells = true) : ∃ i, readSS op cells mk = .instr i [] :=
  exists_readSource_of_operandCellsOk h fun _ _ _ h => exists_readSource_of_operandCellsOk h fun _ _ _ =>
    exists_instr_of_operandCellsOk_nil _

theorem exists_readDS_of_operandCellsOk {mk : RegIndex → Source → Instr}
    (h : operandCellsOk [.dest, .source] cells = true) : ∃ i, readDS op cells mk = .instr i [] :=
  exists_readDest_of_operandCellsOk h fun _ _ _ h => exists_readSource_of_operandCellsOk h fun _ _ _ =>
    exists_instr_of_operandCellsOk_nil _

theorem exists_readDSS_of_operandCellsOk {mk : RegIndex → Source → Source → Instr}
    (h : operandCellsOk [.dest, .source, .source] cells = true) : ∃ i, readDSS op cells mk = .instr i [] :=
  exists_readDest_of_operandCellsOk h fun _ _ _ h => exists_readSource_of_operandCellsOk h fun _ _ _ h =>
    exists_readSource_of_operandCellsOk h fun _ _ _ => exists_instr_of_operandCellsOk_nil _

end

/-- Well-formed cells decode, and decoding uses every one of them: the table of operand kinds asks for what the
format of the opcode reads (30_encoding.md R82). -/
theorem exists_decode_of_cellsWellFormed {cells : List Word} (h : cellsWellFormed cells = true) :
    ∃ i, decode cells = .instr i [] := by
  cases cells with
  | nil => cases h
  | cons op ws =>
    cases ho : opcodeOf op with
    | none => simp [cellsWellFormed, (opcodeOf_eq_none_iff op).1 ho] at h
    | some o =>
      obtain rfl := eq_row_of_opcodeOf ho
      cases o with
      | halt | ret | noop => exact exists_instr_of_operandCellsOk_nil _ h
      | push | jmp | call | out => exact exists_readS_of_operandCellsOk h
      | pop | input => exact exists_readD_of_operandCellsOk h
      | jt | jf | wmem => exact exists_readSS_of_operandCellsOk h
      | set | not | rmem => exact exists_readDS_of_operandCellsOk h
      | eq | gt | add | mult | mod | and | or => exact exists_readDSS_of_operandCellsOk h

theorem cellsWellFormed_encode (i : Instr) : cellsWellFormed (encode i) = true := by
  cases i with
  | halt | ret | noop => rfl
  | push a | jmp a | call a | out a => exact operandCellsOk_s a
  | pop d | input d => exact operandCellsOk_d d
  | jt a b | jf a b | wmem a b => exact operandCellsOk_ss a b
  | set d a | not d a | rmem d a => exact operandCellsOk_ds d a
  | eq d a b | gt d a b | add d a b | mult d a b | mod d a b | and d a b | or d a b =>
    exact operandCellsOk_dss d a b

theorem eq_encode_of_decode {cells : List Word} {i : Instr} (h : decode cells = .instr i []) : cells = encode i := by
  simpa using eq_encode_append_of_decode h

theorem cellsWellFormed_iff_exists_decode {cells : List Word} :
    cellsWellFormed cells = true ↔ ∃ i, decode cells = .instr i [] := by
  refine ⟨exists_decode_of_cellsWellFormed, ?_⟩
  rintro ⟨i, hi⟩
  rw [eq_encode_of_decode hi]
  exact cellsWellFormed_encode i

/-- Settles O4, by the walk through the decoder that shows every reading sound. -/
theorem decodedCellsAreTheEncoding : Obligations.DecodedCellsAreTheEncoding :=
  fun _ _ _ => eq_encode_append_of_decode

/-- Settles O5: well-formed cells decode to the instruction they are the encoding of, and the cells of every
encoding fit the table of operand kinds. -/
theorem wellFormedCellsAreExactlyTheEncodings : Obligations.WellFormedCellsAreExactlyTheEncodings := by
  refine fun cells => ⟨fun h => ?_, ?_⟩
  · obtain ⟨i, hi⟩ := exists_decode_of_cellsWellFormed h
    exact ⟨i, eq_encode_of_decode hi⟩
  · rintro ⟨i, rfl⟩
    exact cellsWellFormed_encode i

/-! ## Assembler lines and their cells (30_encoding.md R88, R89) -/

/-- A register or a literal with a cell of 16 bits, and no literal whose cell is a register's: the operands of
which the assembler and the decoder judge alike (30_encoding.md R89; log 15). -/
def AsmOperand.HasOwnCell (o : AsmOperand) : Prop :=
  (∃ i, o = .reg i ∧ i < 32768) ∨ (∃ n, o = .lit n ∧ n < 32768) ∨ (∃ n, o = .lit n ∧ 32776 ≤ n ∧ n < 65536)

theorem AsmOperand.ok_eq_operandCellOk {o : AsmOperand} {w : Word} (ho : o.HasOwnCell)
    (hw : asmOperandCell [] o = some w) (k : OperandKind) : o.ok k = operandCellOk k w := by
  obtain ⟨n, rfl, hn⟩ | ⟨n, rfl, hn⟩ | ⟨n, rfl, hlo, hhi⟩ := ho
  all_goals
    obtain rfl := Option.some.inj hw
    rw [Bool.eq_iff_iff]
    cases k <;> simp [AsmOperand.ok, operandCellOk] <;> omega

theorem AsmOperand.allOk_eq_operandCellsOk {os : List AsmOperand} {ws : List Word} (hos : ∀ o ∈ os, o.HasOwnCell)
    (hws : os.mapM (asmOperandCell []) = some ws) (ks : List OperandKind) :
    AsmOperand.allOk ks os = operandCellsOk ks ws := by
  induction os generalizing ws ks with
  | nil =>
    obtain rfl : [] = ws := by simpa using hws
    cases ks <;> rfl
  | cons o os ih =>
    obtain ⟨w, hw, ws, htail, rfl⟩ : ∃ w, asmOperandCell [] o = some w ∧
        ∃ ws', os.mapM (asmOperandCell []) = some ws' ∧ w :: ws' = ws := by
      simpa [List.mapM_cons, Option.bind_eq_some_iff] using hws
    rw [List.forall_mem_cons] at hos
    cases ks with
    | nil => rfl
    | cons k ks => rw [AsmOperand.allOk, operandCellsOk, AsmOperand.ok_eq_operandCellOk hos.1 hw, ih hos.2 htail]

/-- The line and its cells are held against the same operand kinds: each of the 22 rows is its opcode's number. -/
theorem AsmItem.wellFormed_eq_cellsWellFormed (op : Opcode) {os : List AsmOperand} {ws : List Word}
    (hos : ∀ o ∈ os, o.HasOwnCell) (hws : os.mapM (asmOperandCell []) = some ws) :
    (AsmItem.instr op os).wellFormed = cellsWellFormed (BitVec.ofNat 16 op.row :: ws) := by
  cases op <;> exact AsmOperand.allOk_eq_operandCellsOk hos hws _

/-- Settles O8: the line fits the table of operand kinds where its cells do, and those are the cells that
decode. -/
theorem assemblerAcceptsExactlyTheDecodableLines : Obligations.AssemblerAcceptsExactlyTheDecodableLines := by
  intro op os cells hos hcells
  rw [AsmItem.wellFormed_eq_cellsWellFormed op hos hcells]
  exact cellsWellFormed_iff_exists_decode

/-! ## What operand cells read as -/

/-- Settles O6, by the range of the cell. -/
theorem sourceCellsResolveByTheirRange : Obligations.SourceCellsResolveByTheirRange := by
  refine fun s raw => ⟨fun h => ⟨raw.setWidth 15, ?_, ?_⟩, fun r h => ?_, fun h => ?_⟩
  · rw [State.resolve, sourceOf_of_lt h]
    rfl
  · rw [BitVec.toNat_setWidth]
    exact Nat.mod_eq_of_lt h
  · obtain rfl := eq_registerCell_of_toNat h
    exact congrArg (Option.map s.value) (sourceOf_sourceCell (.reg r))
  · rw [State.resolve, sourceOf_of_le h]
    rfl

/-- Settles O7: `asRegisterIndex` reads back the cell of a register, and its test fails at any cell below or
above those. -/
theorem destinationCellsNameARegister : Obligations.DestinationCellsNameARegister := by
  refine fun raw => ⟨fun r h => ?_, asRegisterIndex_of_lt_or_le⟩
  obtain rfl := eq_registerCell_of_toNat h
  exact asRegisterIndex_registerCell r

end Sys2Proof

namespace Sys2Proof.Machine

/-! ## The loop of fetch, decode and execute (40_fetch_dispatch.md R100 to R104)

The walk through the decoder, one operand at a time, beside the loop that the spec writes: the next cell is
missing, or invalid, or good, and then the operand after it is read. -/

/-- What a step comes to once the fetch unit has given its answer (40_fetch_dispatch.md R100). -/
def State.afterDecode (s : State) : Decoded → Host.Outcome State Fault Refusal
  | .failed why => .next (s.takeDecodeFault why)
  | .instr i _ => exec i s

theorem step_eq_afterDecode {s : State} (h : s.Stepping) : step s = s.afterDecode s.fetchDecode := by
  rw [step_of_stepping h]
  cases s.fetchDecode <;> rfl

theorem operandCellsOk_concat (ks : List OperandKind) (ws : List Word) (k : OperandKind) (w : Word) :
    operandCellsOk (ks ++ [k]) (ws ++ [w]) = (operandCellsOk ks ws && operandCellOk k w) := by
  induction ks generalizing ws with
  | nil => cases ws <;> simp [operandCellsOk]
  | cons k' ks ih =>
    cases ws with
    | nil => cases ks <;> simp [operandCellsOk]
    | cons w' ws => simp [operandCellsOk, ih, Bool.and_assoc]

theorem State.nextPc_eq_ofNat (s : State) (n : Nat) : s.nextPc n = BitVec.ofNat 16 (s.pc.toNat + n) := by
  simp [State.nextPc, BitVec.ofNat_add]

section
variable {s : State} {kinds : List OperandKind}

/-! ### Good operand cells -/

/-- One more operand cell is good exactly where it exists and is valid for its kind. -/
theorem State.operandsGood_succ_iff {n : Nat} {k : OperandKind} (hn : kinds[n]? = some k) :
    s.operandsGood kinds (n + 1) ↔
      s.operandsGood kinds n ∧ s.pc.toNat + 1 + n < s.memWords ∧
        operandCellOk k (s.cell (s.pc.toNat + 1 + n)) = true := by
  obtain ⟨hlt, -⟩ := List.getElem?_eq_some_iff.1 hn
  simp only [State.operandsGood, State.rawOperands_succ, List.take_add_one, hn, Option.toList_some,
    operandCellsOk_concat, Bool.and_eq_true]
  constructor
  · rintro ⟨-, hmem, hcells, hcell⟩
    exact ⟨⟨hlt.le, by omega, hcells⟩, by omega, hcell⟩
  · rintro ⟨⟨-, -, hcells⟩, hmem, hcell⟩
    exact ⟨hlt, by omega, hcells, hcell⟩

/-- Each of the operand cells that are good is valid for its kind. -/
theorem State.operandCellOk_of_operandsGood {n j : Nat} {k : OperandKind} (hg : s.operandsGood kinds n)
    (hj : j < n) (hk : kinds[j]? = some k) : operandCellOk k (s.cell (s.pc.toNat + 1 + j)) = true := by
  induction n with
  | zero => omega
  | succ n ih =>
    have ⟨hle, _⟩ := hg
    have hn : kinds[n]? = some (kinds[n]'hle) := List.getElem?_eq_getElem hle
    obtain ⟨hgood, -, hlast⟩ := (State.operandsGood_succ_iff hn).1 hg
    obtain hlt | rfl := Nat.lt_succ_iff_lt_or_eq.1 hj
    · exact ih hgood hlt
    · cases hk.symm.trans hn
      exact hlast

/-- `got` is what has been fetched of the operands, all of it good. -/
def State.HasFetched (s : State) (kinds : List OperandKind) (got : List Word) : Prop :=
  s.operandsGood kinds got.length ∧ s.rawOperands got.length = got

/-- Before the first operand, once the opcode cell is there. -/
theorem State.hasFetched_nil (h : s.pc.toNat < s.memWords) : s.HasFetched kinds [] :=
  ⟨⟨Nat.zero_le _, h, rfl⟩, rfl⟩

theorem State.HasFetched.concat {got : List Word} {k : OperandKind} (hf : s.HasFetched kinds got)
    (hk : kinds[got.length]? = some k) (h : s.pc.toNat + 1 + got.length < s.memWords)
    (hok : operandCellOk k (s.cell (s.pc.toNat + 1 + got.length)) = true) :
    s.HasFetched kinds (got ++ [s.cell (s.pc.toNat + 1 + got.length)]) := by
  obtain ⟨hg, hraw⟩ := hf
  rw [State.HasFetched, List.length_append, List.length_singleton, State.rawOperands_succ, hraw]
  exact ⟨(State.operandsGood_succ_iff hk).2 ⟨hg, h, hok⟩, rfl⟩

/-! ### One operand -/

section
variable {got : List Word} (hop : operandKinds (s.cell s.pc.toNat).toNat = some kinds)
  (hf : s.HasFetched kinds got)
include hop hf

/-- The next operand cell is not there (40_fetch_dispatch.md R102). -/
theorem stepByR100_of_missing (hlt : got.length < kinds.length) (h : s.memWords ≤ s.pc.toNat + 1 + got.length) :
    StepByR100 s (s.afterDecode (.failed (.noOperandCell (s.cell s.pc.toNat) got))) := by
  obtain ⟨hg, hraw⟩ := hf
  have hlen := operandKinds_length_le hop
  refine .operandOutOfBounds _ kinds got.length rfl hop hlt hg h ?_
  rw [hraw, State.takeDecodeFault, State.nextPc_eq_ofNat, ← Nat.add_assoc]
  exact s.takeFault_faultTaken _ _ _ _ _ (by omega)

/-- The next operand cell is there and is invalid for its kind (40_fetch_dispatch.md R104). -/
theorem stepByR100_of_invalid {k : OperandKind} (hk : kinds[got.length]? = some k)
    (h : s.pc.toNat + 1 + got.length < s.memWords)
    (hbad : operandCellOk k (s.cell (s.pc.toNat + 1 + got.length)) = false) :
    StepByR100 s (.next (s.takeFault (kindFault k) (s.cell s.pc.toNat)
      (got ++ [s.cell (s.pc.toNat + 1 + got.length)]) .none 0)) := by
  obtain ⟨hg, hraw⟩ := hf
  have hlen := operandKinds_length_le hop
  obtain ⟨hlt, -⟩ := List.getElem?_eq_some_iff.1 hk
  refine .operandInvalid _ kinds got.length k rfl hop hk hg h hbad ?_
  rw [State.rawOperands_succ, hraw]
  exact s.takeFault_faultTaken _ _ _ _ _ (by simp; omega)

/-- The cases of one dest operand; `hgo` takes the walk on from a good cell. -/
theorem stepByR100_readDest {m : Nat} {go : RegIndex → List Word → List Word → Decoded}
    (hk : kinds[got.length]? = some .dest)
    (hgo : ∀ d, s.HasFetched kinds (got ++ [registerCell d]) → StepByR100 s (s.afterDecode
      (go d (got ++ [registerCell d]) (s.cellsFrom m (s.pc.toNat + 1 + got.length + 1))))) :
    StepByR100 s (s.afterDecode
      (readDest (s.cell s.pc.toNat) got (s.cellsFrom (m + 1) (s.pc.toNat + 1 + got.length)) go)) := by
  by_cases h : s.pc.toNat + 1 + got.length < s.memWords
  · rw [State.cellsFrom, if_pos ((s.inBounds_iff _).2 h), readDest]
    cases hd : asRegisterIndex (s.cell (s.pc.toNat + 1 + got.length)) with
    | none => exact stepByR100_of_invalid hop hf hk h (by rw [← asRegisterIndex_isSome, hd]; rfl)
    | some d =>
      have hnext := hf.concat hk h (by rw [← asRegisterIndex_isSome, hd]; rfl)
      rw [← registerCell_of_asRegisterIndex hd] at hnext ⊢
      exact hgo d hnext
  · rw [State.cellsFrom, if_neg (mt (s.inBounds_iff _).1 h)]
    exact stepByR100_of_missing hop hf (List.getElem?_eq_some_iff.1 hk).1 (by omega)

/-- The cases of one source operand; `hgo` takes the walk on from a good cell. -/
theorem stepByR100_readSource {m : Nat} {go : Source → List Word → List Word → Decoded}
    (hk : kinds[got.length]? = some .source)
    (hgo : ∀ a, s.HasFetched kinds (got ++ [sourceCell a]) → StepByR100 s (s.afterDecode
      (go a (got ++ [sourceCell a]) (s.cellsFrom m (s.pc.toNat + 1 + got.length + 1))))) :
    StepByR100 s (s.afterDecode
      (readSource (s.cell s.pc.toNat) got (s.cellsFrom (m + 1) (s.pc.toNat + 1 + got.length)) go)) := by
  by_cases h : s.pc.toNat + 1 + got.length < s.memWords
  · rw [State.cellsFrom, if_pos ((s.inBounds_iff _).2 h), readSource]
    cases ha : sourceOf (s.cell (s.pc.toNat + 1 + got.length)) with
    | none => exact stepByR100_of_invalid hop hf hk h (by rw [← sourceOf_isSome, ha]; rfl)
    | some a =>
      have hnext := hf.concat hk h (by rw [← sourceOf_isSome, ha]; rfl)
      rw [← sourceCell_of_sourceOf ha] at hnext ⊢
      exact hgo a hnext
  · rw [State.cellsFrom, if_neg (mt (s.inBounds_iff _).1 h)]
    exact stepByR100_of_missing hop hf (List.getElem?_eq_some_iff.1 hk).1 (by omega)

/-- Every operand has been fetched and is good, so the instruction is executed (40_fetch_dispatch.md R100). -/
theorem stepByR100_exec {i : Instr} (hlen : got.length = kinds.length) (hi : encode i = s.cell s.pc.toNat :: got) :
    StepByR100 s (exec i s) := by
  obtain ⟨hg, hraw⟩ := hf
  rw [hlen] at hg hraw
  exact .executed i kinds hop hg (by rw [hi, hraw]) rfl

end

/-! ### The formats (30_encoding.md R72) -/

section
variable (h : s.pc.toNat < s.memWords)
include h

theorem stepByR100_noOperands {i : Instr} (hop : operandKinds (s.cell s.pc.toNat).toNat = some [])
    (hi : encode i = [s.cell s.pc.toNat]) (rest : List Word) : StepByR100 s (s.afterDecode (.instr i rest)) :=
  stepByR100_exec hop (State.hasFetched_nil h) rfl hi

theorem stepByR100_readS {mk : Source → Instr} (hop : operandKinds (s.cell s.pc.toNat).toNat = some [.source])
    (hmk : ∀ a, encode (mk a) = [s.cell s.pc.toNat, sourceCell a]) :
    StepByR100 s (s.afterDecode (readS (s.cell s.pc.toNat) (s.cellsFrom 3 (s.pc.toNat + 1)) mk)) :=
  stepByR100_readSource hop (State.hasFetched_nil h) rfl fun a hf => stepByR100_exec hop hf rfl (hmk a)

theorem stepByR100_readD {mk : RegIndex → Instr} (hop : operandKinds (s.cell s.pc.toNat).toNat = some [.dest])
    (hmk : ∀ d, encode (mk d) = [s.cell s.pc.toNat, registerCell d]) :
    StepByR100 s (s.afterDecode (readD (s.cell s.pc.toNat) (s.cellsFrom 3 (s.pc.toNat + 1)) mk)) :=
  stepByR100_readDest hop (State.hasFetched_nil h) rfl fun d hf => stepByR100_exec hop hf rfl (hmk d)

theorem stepByR100_readSS {mk : Source → Source → Instr}
    (hop : operandKinds (s.cell s.pc.toNat).toNat = some [.source, .source])
    (hmk : ∀ a b, encode (mk a b) = [s.cell s.pc.toNat, sourceCell a, sourceCell b]) :
    StepByR100 s (s.afterDecode (readSS (s.cell s.pc.toNat) (s.cellsFrom 3 (s.pc.toNat + 1)) mk)) :=
  stepByR100_readSource hop (State.hasFetched_nil h) rfl fun a hf => stepByR100_readSource hop hf rfl fun b hf =>
    stepByR100_exec hop hf rfl (hmk a b)

theorem stepByR100_readDS {mk : RegIndex → Source → Instr}
    (hop : operandKinds (s.cell s.pc.toNat).toNat = some [.dest, .source])
    (hmk : ∀ d a, encode (mk d a) = [s.cell s.pc.toNat, registerCell d, sourceCell a]) :
    StepByR100 s (s.afterDecode (readDS (s.cell s.pc.toNat) (s.cellsFrom 3 (s.pc.toNat + 1)) mk)) :=
  stepByR100_readDest hop (State.hasFetched_nil h) rfl fun d hf => stepByR100_readSource hop hf rfl fun a hf =>
    stepByR100_exec hop hf rfl (hmk d a)

theorem stepByR100_readDSS {mk : RegIndex → Source → Source → Instr}
    (hop : operandKinds (s.cell s.pc.toNat).toNat = some [.dest, .source, .source])
    (hmk : ∀ d a b, encode (mk d a b) = [s.cell s.pc.toNat, registerCell d, sourceCell a, sourceCell b]) :
    StepByR100 s (s.afterDecode (readDSS (s.cell s.pc.toNat) (s.cellsFrom 3 (s.pc.toNat + 1)) mk)) :=
  stepByR100_readDest hop (State.hasFetched_nil h) rfl fun d hf => stepByR100_readSource hop hf rfl fun a hf =>
    stepByR100_readSource hop hf rfl fun b hf => stepByR100_exec hop hf rfl (hmk d a b)

end

end

/-- The opcode cell is there: the decoder's answer is one of the later cases of the loop. -/
theorem stepByR100_decode {s : State} (h : s.pc.toNat < s.memWords) :
    StepByR100 s (s.afterDecode (decode (s.cell s.pc.toNat :: s.cellsFrom 3 (s.pc.toNat + 1)))) := by
  cases ho : opcodeOf (s.cell s.pc.toNat) with
  | none =>
    simp only [decode, ho]
    exact .unknownOpcode _ rfl h ((opcodeOf_eq_none_iff _).1 ho) (s.takeFault_faultTaken _ _ _ _ _ (by simp))
  | some o =>
    have hrow := eq_row_of_opcodeOf ho
    have hop : operandKinds (s.cell s.pc.toNat).toNat = operandKinds (BitVec.ofNat 16 o.row).toNat := by rw [hrow]
    simp only [decode, ho]
    cases o with
    | halt | ret | noop => exact stepByR100_noOperands h hop (by rw [hrow]; rfl) _
    | push | jmp | call | out => exact stepByR100_readS h hop fun _ => by rw [hrow]; rfl
    | pop | input => exact stepByR100_readD h hop fun _ => by rw [hrow]; rfl
    | jt | jf | wmem => exact stepByR100_readSS h hop fun _ _ => by rw [hrow]; rfl
    | set | not | rmem => exact stepByR100_readDS h hop fun _ _ => by rw [hrow]; rfl
    | eq | gt | add | mult | mod | and | or => exact stepByR100_readDSS h hop fun _ _ _ => by rw [hrow]; rfl

/-- Settles O12: the decoder walked through operand by operand takes the cases of the loop in their order. -/
theorem stepFollowsTheFetchDecodeLoop : Obligations.StepFollowsTheFetchDecodeLoop := by
  intro s hs
  rw [step_eq_afterDecode hs, State.fetchDecode]
  by_cases h : s.pc.toNat < s.memWords
  · rw [State.cellsAtPc_of_inBounds h]
    exact stepByR100_decode h
  · rw [State.cellsAtPc_of_outOfBounds (Nat.not_lt.1 h)]
    exact .opcodeOutOfBounds _ rfl (Nat.not_lt.1 h) (s.takeFault_faultTaken _ _ _ _ _ (by simp))

/-! ## Which case of the loop a step is

Its five cases exclude each other, so the premises of a fault's case settle that the step takes it. -/

/-- Settles O9: in every other case of the loop the cell that is past memory would exist, or an operand cell
before it would be missing or invalid. -/
theorem fetchPastMemoryFaults : Obligations.FetchPastMemoryFaults := by
  refine fun s hs => ⟨fun hpc => ?_, fun kinds n hkinds hn hgood hpast => ?_⟩
  · cases stepFollowsTheFetchDecodeLoop s hs with
    | opcodeOutOfBounds t ho _ ht => exact ⟨t, ho, ht⟩
    | unknownOpcode _ _ h => omega
    | operandOutOfBounds _ _ _ _ _ _ hg | operandInvalid _ _ _ _ _ _ _ hg | executed _ _ _ hg =>
      obtain ⟨-, hmem, -⟩ := hg
      omega
  · have ⟨_, hmem, _⟩ := hgood
    cases stepFollowsTheFetchDecodeLoop s hs with
    | opcodeOutOfBounds _ _ h => omega
    | unknownOpcode _ _ _ hk => cases hk.symm.trans hkinds
    | operandOutOfBounds t kinds' n' ho hk hn' hg h ht =>
      obtain ⟨-, hmem', -⟩ := hg
      obtain rfl : n' = n := by omega
      exact ⟨t, ho, ht⟩
    | operandInvalid _ kinds' n' k _ hk hn' hg h hbad =>
      cases hk.symm.trans hkinds
      simp [State.operandCellOk_of_operandsGood hgood (by omega) hn'] at hbad
    | executed _ kinds' hk hg =>
      cases hk.symm.trans hkinds
      obtain ⟨-, hmem', -⟩ := hg
      omega

/-- Settles O10: a number of 22 or more has no operand kinds, which every later case of the loop asks for. -/
theorem unknownOpcodeFaultsBeforeAnyOperand : Obligations.UnknownOpcodeFaultsBeforeAnyOperand := by
  intro s hs hpc hop
  have hnone := (opcodeOf_eq_none_iff _).1 (opcodeOf_of_le hop)
  cases stepFollowsTheFetchDecodeLoop s hs with
  | opcodeOutOfBounds _ _ h => omega
  | unknownOpcode t ho _ _ ht => exact ⟨t, ho, ht⟩
  | operandOutOfBounds _ _ _ _ hk | operandInvalid _ _ _ _ _ hk | executed _ _ hk => cases hk.symm.trans hnone

/-- Settles O11: the cell that fails is neither missing nor among the good ones, and no cell before it fails. -/
theorem firstFailingOperandDecidesTheFault : Obligations.FirstFailingOperandDecidesTheFault := by
  intro s kinds n k hs hkinds hkind hgood hmem hbad
  have hnot {n' : Nat} (hg : s.operandsGood kinds n') : n' ≤ n :=
    Nat.not_lt.1 fun hlt => by simp [State.operandCellOk_of_operandsGood hg hlt hkind] at hbad
  cases stepFollowsTheFetchDecodeLoop s hs with
  | opcodeOutOfBounds _ _ h => omega
  | unknownOpcode _ _ _ hk => cases hk.symm.trans hkinds
  | operandOutOfBounds _ kinds' n' _ hk _ hg h =>
    cases hk.symm.trans hkinds
    have hle := hnot hg
    omega
  | operandInvalid t kinds' n' k' ho hk hn' hg _ hbad' ht =>
    cases hk.symm.trans hkinds
    obtain rfl : n' = n := by
      refine (hnot hg).antisymm (Nat.not_lt.1 fun hlt => ?_)
      simp [State.operandCellOk_of_operandsGood hgood hlt hn'] at hbad'
    cases hn'.symm.trans hkind
    exact ⟨t, ho, ht⟩
  | executed _ kinds' hk hg =>
    cases hk.symm.trans hkinds
    obtain ⟨hlt, -⟩ := List.getElem?_eq_some_iff.1 hkind
    exact absurd (hnot hg) (Nat.not_le.2 hlt)

/-! ## When the block steps, and what a step may change -/

/-- A step of a block that makes none answers why. -/
theorem step_of_noStep?_eq_some {s : State} {why : Fault} (h : s.noStep? = some why) : step s = .fault why := by
  simp only [step, h]

theorem exists_step_of_stepping {s : State} (h : s.Stepping) : ∃ t, step s = .next t := by
  rw [step_eq_afterDecode h]
  cases s.fetchDecode with
  | failed why => exact ⟨_, rfl⟩
  | instr i rest =>
    obtain ⟨t, ht, -⟩ := exec_effect i s
    exact ⟨t, ht⟩

/-- Settles O13: a step answers a next state where nothing holds the block back, and a named stop where
something does. -/
theorem stepHappensExactlyWhenRunningAndEnabled : Obligations.StepHappensExactlyWhenRunningAndEnabled := by
  refine fun s => ⟨⟨fun ⟨t, ht⟩ => ?_, exists_step_of_stepping⟩, fun r hr => ?_⟩
  · obtain ⟨hsteps, -⟩ := step_cases ht
    exact s.noStep?_eq_none_iff.1 hsteps
  · cases hwhy : s.noStep? with
    | none =>
      obtain ⟨t, ht⟩ := exists_step_of_stepping (s.noStep?_eq_none_iff.1 hwhy)
      cases ht.symm.trans hr
    | some why => cases (step_of_noStep?_eq_some hwhy).symm.trans hr

/-- No instruction's row of 40_fetch_dispatch.md R108 makes the block `FAULTED`. -/
theorem RowWrite.run_ne_faulted {i : Instr} {s t : State} (h : RowWrite i s t) (hrun : s.run ≠ .faulted) :
    t.run ≠ .faulted := by
  cases h with
  | halt => exact nofun
  | _ => exact hrun

/-- Settles O14: a step that ends in `FAULTED` has taken a fault, in fetch and decode or in execute, since no
instruction that retires ends so. -/
theorem faultsChangeOnlyRunAndRecord : Obligations.FaultsChangeOnlyRunAndRecord := by
  intro s t h hrun
  obtain ⟨hsteps, ⟨why, -, rfl⟩ | ⟨i, rest, -, hexec⟩⟩ := step_cases h
  · obtain ⟨kind, op, access, addr, ⟨hnamed, -⟩, heq⟩ := s.takeDecodeFault_eq_takeFault why
    rw [heq]
    exact ⟨rfl, rfl, hnamed⟩
  · obtain ⟨hrunning, -, -⟩ := s.noStep?_eq_none_iff.1 hsteps
    cases execEffect_of_exec hexec with
    | retires hrow => exact absurd hrun (hrow.run_ne_faulted (by simp [hrunning]))
    | faults _ hfit =>
      obtain ⟨hnamed, -⟩ := hfit
      exact ⟨rfl, rfl, hnamed⟩

/-! ## The instructions and their rows -/

/-- `halt` leaves the block halted (43_control_flow.md R160). -/
theorem run_of_exec_halt {s t : State} (h : exec .halt s = .next t) : t.run = .halted := by
  cases h
  rfl

/-- Settles O16: the effect of an execution is the write of the row or a fault of the instruction. -/
theorem instructionsWriteOnlyTheirRow : Obligations.InstructionsWriteOnlyTheirRow := by
  intro i s t h
  cases execEffect_of_exec h with
  | retires hrow hpc =>
    exact .inl ⟨hrow.keepsOutside.goto _, hpc, fun hi => run_of_exec_halt (hi ▸ h)⟩
  | faults hk =>
    exact .inr ⟨_, _, _, hk, s.takeFault_faultTaken _ _ _ _ _ (operandCells_length_le i)⟩

/-- Settles O15: every instruction has an effect. -/
theorem everyInstructionAnswersANextState : Obligations.EveryInstructionAnswersANextState := by
  intro i s
  obtain ⟨t, ht, -⟩ := exec_effect i s
  exact ⟨t, ht⟩

/-- Settles O1: once the cells decode, a step that is made is the execution. -/
theorem stepRunsTheDecodedInstruction : Obligations.StepRunsTheDecodedInstruction := by
  intro s i rest hs hdecode
  rw [step_eq_afterDecode hs, State.fetchDecode, hdecode]
  rfl

end Sys2Proof.Machine

namespace Sys2Proof.Machine

/-! ## `set`, `push` and `pop` (41_move_and_stack.md) -/

/-- An execution that writes the row and moves the pc retires (40_fetch_dispatch.md R108, R109). -/
theorem RowWrite.retiresTo {i : Instr} {s t : State} {target : Word} (hrow : RowWrite i s t)
    (h : exec i s = .next (t.goto target)) : RetiresTo i s (t.goto target) target :=
  ⟨h, rfl, hrow.keepsOutside.goto target⟩

theorem exec_push_of_stackFull {s : State} (h : s.stackFull = true) (a : Source) :
    exec (.push a) s = .next (s.takeExecFault (.push a) .stackOverflow) :=
  if_pos h

theorem exec_push_of_not_stackFull {s : State} (h : s.stackFull = false) (a : Source) :
    exec (.push a) s = .next ((s.push (s.word a)).advance 2) :=
  if_neg (by simp [h])

/-- Settles O17: the row of `set` is a write of its register. -/
theorem setCopiesItsSource : Obligations.SetCopiesItsSource := by
  intro s d a
  have hrow : RowWrite (.set d a) s (s.setReg d (s.value a)) := .setReg _ _ rfl
  exact ⟨rfl, _, hrow.retiresTo rfl, s.reg_setReg_same d _⟩

/-- Settles O18, by what `push` does with room and on a full stack. -/
theorem pushPushesTheResolvedValue : Obligations.PushPushesTheResolvedValue := by
  refine fun s a => ⟨rfl, fun hroom => ?_, fun hfull => ?_⟩
  · have hfree := State.stackFull_of_hasRoom hroom
    have hrow : RowWrite (.push a) s (s.push (s.word a)) := .push _ rfl hfree
    exact ⟨_, _, hrow.retiresTo (exec_push_of_not_stackFull hfree a), rfl, s.word_toNat a⟩
  · exact ⟨_, exec_push_of_stackFull (State.stackFull_of_isFull hfull) a, s.takeExecFault_faultTaken _ _⟩

/-- Settles O19, by what `pop` does where there is a top entry and where there is none. -/
theorem popTakesTheTopEntry : Obligations.PopTakesTheTopEntry := by
  refine fun s d => ⟨rfl, fun below w hs => ?_, fun hs => ?_⟩
  · have hrow : RowWrite (.pop d) s (s.dropTop.setRegWord d w) := .popReg _ _ rfl rfl
    have hexec := exec_pop_of_top?_eq_some (s.top?_concat below w hs) d
    exact ⟨_, hrow.retiresTo hexec, by simp [hs], by simp⟩
  · have htop : s.top? = none := by simp [State.top?, hs]
    exact ⟨_, exec_pop_of_top?_eq_none htop d, s.takeExecFault_faultTaken _ _⟩

/-! ## Runs of pushes and pops (41_move_and_stack.md R133) -/

/-- A pushed value fits a register again (10_state.md R23). -/
@[simp] theorem setWidth_zext16 (v : Value) : (zext16 v).setWidth 15 = v := by
  rw [zext16, BitVec.setWidth_setWidth_of_le v (by decide), BitVec.setWidth_eq]

/-- A stack with room for a number of entries more than it has is not full (10_state.md R30). -/
theorem State.stackFull_of_stackFits {s : State} {n : Nat} (h : s.stackFits n = true) (hn : s.stack.length < n) :
    s.stackFull = false :=
  stackFull_of_hasRoom fun depth hdepth => hn.trans_le ((s.stackFits_iff n).1 h depth hdepth)

/-- Values pushed one after another stand on the stack in their order. -/
theorem exists_execAll_push {vs : List Value} : ∀ {s : State},
    s.stackFits (s.stack.length + vs.length) = true →
      ∃ t, execAll (vs.map fun v => .push (.lit v)) s = some t ∧ t.stack = s.stack ++ vs.map zext16 := by
  induction vs with
  | nil => exact fun _ => ⟨_, rfl, by simp⟩
  | cons v vs ih =>
    intro s h
    have hexec := exec_push_of_not_stackFull (State.stackFull_of_stackFits h (by simp)) (.lit v)
    obtain ⟨t, ht, hstack⟩ := ih (s := (s.push (s.word (.lit v))).advance 2)
      (by simpa [State.stackFits, Nat.add_assoc, Nat.add_comm 1] using h)
    refine ⟨t, ?_, ?_⟩
    · simpa [execAll, hexec] using ht
    · simpa [State.word, State.value] using hstack

/-- Pops give the values of a stack from its top down. -/
theorem exists_popInto_of_stack (d : RegIndex) {below : List Word} {vs : List Value} : ∀ {t : State},
    t.stack = below ++ vs.reverse.map zext16 → ∃ u, popInto d vs.length t = some (vs, u) ∧ u.stack = below := by
  induction vs with
  | nil => exact fun h => ⟨_, rfl, by simpa using h⟩
  | cons v vs ih =>
    intro t h
    have hconcat : t.stack = (below ++ vs.reverse.map zext16) ++ [zext16 v] := by simpa using h
    have hexec := exec_pop_of_top?_eq_some (t.top?_concat _ _ hconcat) d
    have hrest : ((t.dropTop.setRegWord d (zext16 v)).advance 2).stack = below ++ vs.reverse.map zext16 := by
      simp [hconcat]
    obtain ⟨u, hu, hstack⟩ := ih hrest
    exact ⟨u, by simp [popInto, hexec, hu], hstack⟩

/-- Settles O20: the pushes put the values on the stack in order, and the pops take them off from the top. -/
theorem pushedValuesPopInReverse : Obligations.PushedValuesPopInReverse := by
  intro s vs d h
  obtain ⟨t, ht, hstack⟩ := exists_execAll_push h
  obtain ⟨u, hu, hbelow⟩ := exists_popInto_of_stack d (below := s.stack) (vs := vs.reverse) (t := t)
    (by simpa using hstack)
  exact ⟨t, u, ht, by simpa using hu, hbelow⟩

end Sys2Proof.Machine

namespace Sys2Proof.Machine

/-! ## The arithmetic and logic family (42_alu.md) -/

/-- An instruction with dest `d` that writes the family's result to `d` retires past its `n` cells (R150). -/
theorem retiresTo_result {i : Instr} {s : State} {d : RegIndex} {v : Value} {n : Nat}
    (hdest : (footprint i s).reg = some d) (h : exec i s = .next (s.result d v n)) :
    RetiresTo i s (s.result d v n) (s.nextPc n) :=
  have hrow : RowWrite i s (s.setReg d v) := .setReg d v hdest
  hrow.retiresTo h

/-- The value a comparison writes, as a choice on the comparison itself (R142, R143). -/
theorem truthValue_decide (p : Prop) [Decidable p] : truthValue (decide p) = if p then 1 else 0 := by
  simp only [truthValue, decide_eq_true_eq]

theorem exec_mod_of_eq_zero {s : State} {b : Source} (h : s.value b = 0) (d : RegIndex) (a : Source) :
    exec (.mod d a b) s = .next (s.takeExecFault (.mod d a b) .divideByZero) :=
  if_pos h

theorem exec_mod_of_ne_zero {s : State} {b : Source} (h : s.value b ≠ 0) (d : RegIndex) (a : Source) :
    exec (.mod d a b) s = .next (s.result d (s.value a % s.value b) 4) :=
  if_neg h

/-- Settles O21: values are equal exactly when the numbers they stand for are. -/
theorem eqAndGtWriteZeroOrOne : Obligations.EqAndGtWriteZeroOrOne := by
  refine fun s d a b => ⟨rfl, rfl, ⟨_, retiresTo_result rfl rfl, ?_⟩, ⟨_, retiresTo_result rfl rfl, ?_⟩⟩
  · simp only [State.reg_result_same, truthValue_decide, BitVec.toNat_inj]
  · rw [State.reg_result_same, truthValue_decide]

/-- Settles O22: the arithmetic of values is arithmetic modulo 32768. -/
theorem addAndMultAreModulo32768 : Obligations.AddAndMultAreModulo32768 := by
  refine fun s d a b => ⟨rfl, rfl, ⟨_, retiresTo_result rfl rfl, ?_⟩, ⟨_, retiresTo_result rfl rfl, ?_⟩⟩
  · rw [State.reg_result_same, BitVec.toNat_add]
  · rw [State.reg_result_same, BitVec.toNat_mul]

/-- Settles O23, by what `mod` does with a nonzero and with a zero divisor. -/
theorem modWritesTheRemainder : Obligations.ModWritesTheRemainder := by
  refine fun s d a b => ⟨rfl, fun hb => ?_, fun hb => ?_⟩
  · have hne : s.value b ≠ 0 := fun h => hb (by rw [h]; rfl)
    exact ⟨_, retiresTo_result rfl (exec_mod_of_ne_zero hne d a), by rw [State.reg_result_same, BitVec.toNat_umod]⟩
  · have hzero : s.value b = 0 := BitVec.eq_of_toNat_eq hb
    exact ⟨_, exec_mod_of_eq_zero hzero d a, s.takeExecFault_faultTaken _ _⟩

/-- Settles O24: the bits of a value are those of its number. -/
theorem andAndOrAreBitwise : Obligations.AndAndOrAreBitwise := by
  refine fun s d a b => ⟨rfl, rfl, ⟨_, retiresTo_result rfl rfl, fun n => ?_⟩,
    ⟨_, retiresTo_result rfl rfl, fun n => ?_⟩⟩
  · rw [State.reg_result_same, BitVec.toNat_and, Nat.testBit_and]
  · rw [State.reg_result_same, BitVec.toNat_or, Nat.testBit_or]

/-- Settles O25: the complement of a 15-bit value. -/
theorem notIsTheFifteenBitComplement : Obligations.NotIsTheFifteenBitComplement := by
  intro s d a
  exact ⟨rfl, _, retiresTo_result rfl rfl, by rw [State.reg_result_same, BitVec.toNat_not]⟩

end Sys2Proof.Machine

namespace Sys2Proof.Machine

/-! ## Control flow (43_control_flow.md) -/

theorem exec_call_of_stackFull {s : State} (h : s.stackFull = true) (a : Source) :
    exec (.call a) s = .next (s.takeExecFault (.call a) .stackOverflow) :=
  if_pos h

theorem exec_call_of_not_stackFull {s : State} (h : s.stackFull = false) (a : Source) :
    exec (.call a) s = .next ((s.push (s.nextPc 2)).goto (s.word a)) :=
  if_neg (by simp [h])

/-- Settles O31: the stack the call left ends in the address just past the call, and `ret` takes that entry. -/
theorem retReturnsJustPastTheCall : Obligations.RetReturnsJustPastTheCall := by
  intro s a hroom
  refine ⟨_, exec_call_of_not_stackFull (State.stackFull_of_hasRoom hroom) a, fun u hu => ?_⟩
  have hstack : u.stack = s.stack ++ [s.nextPc 2] := hu
  exact ⟨_, exec_ret_of_top?_eq_some (u.top?_concat _ _ hstack), rfl, by simp [hstack]⟩

/-- A block that is halted makes no step (40_fetch_dispatch.md R105). -/
theorem step_ne_next_of_halted {t : State} (h : t.run = .halted) (u : State) : step t ≠ .next u := by
  intro hstep
  obtain ⟨hsteps, -⟩ := step_cases hstep
  obtain ⟨hrunning, -, -⟩ := t.noStep?_eq_none_iff.1 hsteps
  cases h.symm.trans hrunning

/-- Settles O26: the row of `halt` is a write of the run state, and a halted block makes no step. -/
theorem haltStopsPastItself : Obligations.HaltStopsPastItself := by
  intro s
  have hrow : RowWrite .halt s s.halt := .halt rfl
  exact ⟨rfl, _, hrow.retiresTo rfl, rfl, step_ne_next_of_halted rfl⟩

/-- Settles O27: `jmp` writes the pc alone, and the word of a source is its value. -/
theorem jmpGoesToItsTarget : Obligations.JmpGoesToItsTarget :=
  fun s a => ⟨rfl, _, _, RowWrite.nothing.retiresTo rfl, s.word_toNat a⟩

/-- A condition holds where its value, as a number, is not 0 (R163). -/
theorem State.holds_iff (s : State) (c : Source) : s.holds c = true ↔ (s.value c).toNat ≠ 0 := by
  simp [State.holds, BitVec.toNat_eq]

/-- Where a jump that is taken under a condition goes, the instruction being 3 cells long (R163, R164). -/
def State.branchTarget (s : State) (taken : Prop) [Decidable taken] (a : Source) : Word :=
  if taken then s.word a else s.nextPc 3

theorem State.branchTarget_spec (s : State) (taken : Prop) [Decidable taken] (a : Source) :
    if taken then (s.branchTarget taken a).toNat = (s.value a).toNat else s.branchTarget taken a = s.pc + 3 := by
  unfold State.branchTarget
  split
  · exact s.word_toNat a
  · rfl

theorem exec_jt (s : State) (c a : Source) :
    exec (.jt c a) s = .next (s.goto (s.branchTarget ((s.value c).toNat ≠ 0) a)) := by
  simp only [exec, execJt, s.holds_iff, State.advance, State.branchTarget, apply_ite s.goto]

theorem exec_jf (s : State) (c a : Source) :
    exec (.jf c a) s = .next (s.goto (s.branchTarget ((s.value c).toNat = 0) a)) := by
  simp only [exec, execJf, s.holds_iff, State.advance, State.branchTarget, apply_ite s.goto, ite_not]

/-- Settles O28: each writes the pc alone, with the target of its branch. -/
theorem jtAndJfTestTheirCondition : Obligations.JtAndJfTestTheirCondition :=
  fun s c a => ⟨rfl, rfl,
    ⟨_, _, RowWrite.nothing.retiresTo (exec_jt s c a), s.branchTarget_spec _ a⟩,
    ⟨_, _, RowWrite.nothing.retiresTo (exec_jf s c a), s.branchTarget_spec _ a⟩⟩

/-- Settles O29, by what `call` does with room and on a full stack. -/
theorem callPushesTheReturnAddress : Obligations.CallPushesTheReturnAddress := by
  refine fun s a => ⟨rfl, fun hroom => ?_, fun hfull => ?_⟩
  · have hfree := State.stackFull_of_hasRoom hroom
    have hrow : RowWrite (.call a) s (s.push (s.nextPc 2)) := .push _ rfl hfree
    exact ⟨_, _, hrow.retiresTo (exec_call_of_not_stackFull hfree a), s.word_toNat a, rfl⟩
  · exact ⟨_, exec_call_of_stackFull (State.stackFull_of_isFull hfull) a, s.takeExecFault_faultTaken _ _⟩

/-- Settles O30, by what `ret` does where there is a top entry and where there is none. -/
theorem retPopsThePc : Obligations.RetPopsThePc := by
  refine fun s => ⟨rfl, fun below w hs => ?_, fun hs => ?_⟩
  · have hrow : RowWrite .ret s s.dropTop := .dropTop rfl
    exact ⟨_, hrow.retiresTo (exec_ret_of_top?_eq_some (s.top?_concat below w hs)), by simp [hs]⟩
  · have htop : s.top? = none := by simp [State.top?, hs]
    exact ⟨_, exec_ret_of_top?_eq_none htop, s.takeExecFault_faultTaken _ _⟩

/-- Settles O32: `noop` writes nothing but the pc. -/
theorem noopOnlyAdvances : Obligations.NoopOnlyAdvances :=
  fun _ => ⟨rfl, _, RowWrite.nothing.retiresTo rfl⟩

end Sys2Proof.Machine

namespace Sys2Proof.Machine

/-! ## Memory access (44_memory_access.md) -/

/-- `rmem` within memory reads its cell and retires (R180). -/
theorem exec_rmem_of_lt {s : State} {a : Source} (h : s.address a < s.memWords) (d : RegIndex) :
    exec (.rmem d a) s = .next ((s.setRegWord d (s.cell (s.address a))).advance 3) :=
  if_pos ((s.inBounds_iff _).2 h)

theorem exec_rmem_of_le {s : State} {a : Source} (h : s.memWords ≤ s.address a) (d : RegIndex) :
    exec (.rmem d a) s = .next (s.takeBoundsFault (.rmem d a) .read (s.word a)) :=
  if_neg (mt (s.inBounds_iff _).1 h.not_gt)

theorem exec_wmem_of_le {s : State} {a : Source} (h : s.memWords ≤ s.address a) (v : Source) :
    exec (.wmem a v) s = .next (s.takeBoundsFault (.wmem a v) .write (s.word a)) :=
  if_neg (mt (s.inBounds_iff _).1 h.not_gt)

/-- A bounds fault raised at the address a source resolves to records that address (60_exceptions.md R206). -/
theorem State.takeBoundsFault_word_faultTaken (s : State) (i : Instr) (access : AccessKind) (a : Source) :
    FaultTaken s (s.takeBoundsFault i access (s.word a)) .outOfBounds (opcodeCell i) (operandCells i) access
      (BitVec.ofNat 16 (s.value a).toNat) :=
  s.word_eq_ofNat a ▸ s.takeBoundsFault_faultTaken i access (s.word a)

/-- Another cell than the one written reads as before (20_memory.md R56). -/
theorem State.cell_setCell_ne (s : State) {k j : Nat} (w : Word) (h : j ≠ k) : (s.setCell k w).cell j = s.cell j :=
  Memory.readCell_writeCell_ne w h

/-- Settles O33, by what `rmem` does within memory and past it. -/
theorem rmemReadsTheRawCell : Obligations.RmemReadsTheRawCell := by
  refine fun s d a => ⟨rfl, fun hlt => ?_, fun hle => ?_⟩
  · have hrow : RowWrite (.rmem d a) s (s.setRegWord d (s.cell (s.address a))) := .setReg _ _ rfl
    refine ⟨_, hrow.retiresTo (exec_rmem_of_lt hlt d), ?_⟩
    rw [State.reg_goto, State.reg_setRegWord_same, BitVec.toNat_setWidth, State.address]
  · exact ⟨_, exec_rmem_of_le hle d, s.takeBoundsFault_word_faultTaken _ _ a⟩

/-- Settles O34, by what `wmem` does within memory and past it. -/
theorem wmemWritesOneCell : Obligations.WmemWritesOneCell := by
  refine fun s a v => ⟨rfl, fun hlt => ?_, fun hle => ?_⟩
  · have hrow : RowWrite (.wmem a v) s (s.setCell (s.address a) (s.word v)) := .setCell _ _ rfl hlt
    refine ⟨_, hrow.retiresTo (exec_wmem_of_lt hlt v), fun hwf => ?_, fun k hk => s.cell_setCell_ne _ hk⟩
    have hwrote : (s.setCell (s.address a) (s.word v)).cell (s.address a) = s.word v :=
      State.cell_setCell_same hwf _ _
    exact (congrArg BitVec.toNat hwrote).trans (s.word_toNat v)
  · exact ⟨_, exec_wmem_of_le hle v, s.takeBoundsFault_word_faultTaken _ _ a⟩

end Sys2Proof.Machine

namespace Sys2Proof.Machine

/-! ## Output and input (45_io.md) -/

/-- Settles O35: the row of `out` is a write of the output trace. -/
theorem outEmitsItsValue : Obligations.OutEmitsItsValue := by
  intro s a
  have hrow : RowWrite (.out a) s (s.emit (s.value a)) := .emit _ rfl
  exact ⟨rfl, _, hrow.retiresTo rfl, s.emit_output _⟩

/-- Settles O36: the row of `in` is a write of its register and of the input position, whatever the answer. -/
theorem inTakesACharacterOrSkips : Obligations.InTakesACharacterOrSkips := by
  intro s d
  have hrow : RowWrite (.input d) s (s.receive d s.pollAnswer) := .receive _ _ rfl rfl
  refine ⟨rfl, _, hrow.retiresTo rfl, s.receive_polls d s.pollAnswer, ?_⟩
  rw [State.reg_goto, State.reg_receive_same, State.pollAnswer]
  cases Config.inputAnswer s.polls with
  | some c => rfl
  | none => rfl

end Sys2Proof.Machine

namespace Sys2Proof.Machine

/-! ## The outcome of a run, as the status tells it (60_exceptions.md R208) -/

theorem RunState.code_eq_two_iff (r : RunState) : r.code = 2 ↔ r = .faulted := by
  cases r <;> decide

theorem FaultKind.code_eq_zero_iff (k : FaultKind) : k.code = 0 ↔ k = .none := by
  cases k <;> decide

/-- The outcome is what the two status fields say. -/
theorem State.runOutcome_iff_status (s : State) :
    (s.runOutcome = .halted ↔ s.status.run = 1) ∧ (s.runOutcome = .notEnded ↔ s.status.run = 0) ∧
      ∀ c, s.runOutcome = .faulted c ↔ s.status.run = 2 ∧ s.status.faultKind = c := by
  unfold State.runOutcome State.status
  cases s.run <;> simp [RunState.code]

/-- Settles O42: `run` has a code of its own in each run state, and the invariant has a fault recorded exactly in
`FAULTED`. -/
theorem runOutcomesAreDistinguishable : Obligations.RunOutcomesAreDistinguishable := by
  intro s hinv
  obtain ⟨-, -, -, -, hmade, hclear⟩ := hinv
  obtain ⟨hhalted, hnotEnded, hfaulted⟩ := s.runOutcome_iff_status
  refine ⟨hhalted, hnotEnded, hfaulted, fun hrun => ?_, fun hrun => ?_⟩
  · obtain ⟨⟨hnamed, -⟩, -⟩ := (FaultRecord.wellMade_iff _).1 (hmade (s.run.code_eq_two_iff.1 hrun))
    have hcode : s.status.faultKind ≠ 0 := mt s.faultRec.kind.code_eq_zero_iff.1 hnamed
    exact Nat.one_le_iff_ne_zero.2 fun h0 => hcode (BitVec.eq_of_toNat_eq h0)
  · have hclear := hclear (mt s.run.code_eq_two_iff.2 hrun)
    exact s.faultRec.kind.code_eq_zero_iff.2 (congrArg FaultRecord.kind hclear)

/-! ## Save and restore (60_exceptions.md R224 to R228) -/

theorem State.save_eq_some_iff {s : State} {p : Snapshot} : s.save = some p ↔ ¬ s.Stepping ∧ s.snapshot = p := by
  rw [State.save, Option.ite_none_right_eq_some, s.quiet_iff, Option.some_inj]

/-- While the block steps the host may not save (R220). -/
theorem State.save_of_stepping {s : State} (h : s.Stepping) : s.save = none :=
  if_neg fun hquiet => s.quiet_iff.1 hquiet h

/-- Settles O48: such a block makes no step, and the host may save exactly then. -/
theorem snapshotHoldsRegistersStackAndPc : Obligations.SnapshotHoldsRegistersStackAndPc := by
  refine fun s => ⟨fun h => ?_, State.save_of_stepping⟩
  have hquiet : ¬ s.Stepping := by
    rintro ⟨hrun, henable, -⟩
    simp [hrun, henable] at h
  exact ⟨s.snapshot, State.save_eq_some_iff.2 ⟨hquiet, rfl⟩, by simp [State.snapshot], s.snapshot_registers,
    rfl, rfl⟩

section
variable (s : State) {p : Snapshot}

theorem State.hostMove_restore_of_canRestore (hs : ¬ s.Stepping) (hp : s.canRestore p = true) :
    s.hostMove (.restore p) = .done (s.overwrite p) := by
  simp only [State.hostMove, State.restore, s.quiet_iff.2 hs, hp, if_true]

theorem State.hostMove_restore_of_not_canRestore (hs : ¬ s.Stepping) (hp : ¬ s.canRestore p = true) :
    s.hostMove (.restore p) = .failed s := by
  simp only [State.hostMove, State.restore, s.quiet_iff.2 hs, hp, if_true, if_false, Bool.false_eq_true]

/-- The registers after an overwriting are those of the snapshot, where each fits a register (R226). -/
theorem State.registers_of_overwrite (hlen : p.registers.length = 8)
    (hfit : ∀ v ∈ p.registers, v ≤ 32767) (r : RegIndex) :
    p.registers[r.val]? = some ((s.overwrite p).reg r).toNat := by
  have hr : r.val < p.registers.length := r.isLt.trans_eq hlen.symm
  have hv := hfit _ (List.getElem_mem hr)
  have hmod : p.registers[r.val] % 32768 = p.registers[r.val] := Nat.mod_eq_of_lt (by omega)
  simp [State.reg, State.overwrite, hr, hmod]

/-- The stack after an overwriting is that of the snapshot, where each entry fits a word (R226). -/
theorem State.stack_of_overwrite (hfit : ∀ v ∈ p.stack, v ≤ 65535) :
    (s.overwrite p).stack.map (fun w => w.toNat) = p.stack := by
  rw [State.overwrite_stack, List.map_map]
  refine (List.map_congr_left fun v hv => ?_).trans p.stack.map_id
  exact Nat.mod_eq_of_lt (Nat.lt_succ_of_le (hfit v hv))

end

/-- Settles O49: a block that makes no step overwrites with a snapshot it can hold, and otherwise fails. -/
theorem restoreIsAllOrNothing : Obligations.RestoreIsAllOrNothing := by
  refine fun s p hs => ⟨fun hp => ?_, fun hp => ?_⟩
  · have hmove := s.hostMove_restore_of_canRestore hs ((s.canRestore_iff p).2 hp)
    obtain ⟨hlen, hregs, hstack, hpc, -⟩ := hp
    exact ⟨_, hmove, s.registers_of_overwrite hlen hregs, s.stack_of_overwrite hstack,
      Nat.mod_eq_of_lt (Nat.lt_succ_of_le hpc), rfl⟩
  · exact s.hostMove_restore_of_not_canRestore hs (mt (s.canRestore_iff p).1 hp)

/-- The snapshot of a state within its STACK_DEPTH is one that a block of that STACK_DEPTH can hold (R227). -/
theorem State.canRestore_snapshot {s t : State} (hfits : s.stackFits s.stack.length = true)
    (hdepth : t.stackDepth = s.stackDepth) : t.canRestore s.snapshot = true := by
  refine (t.canRestore_iff _).2 ⟨by simp [State.snapshot], fun v hv => ?_, fun v hv => ?_,
    Nat.le_of_lt_succ s.pc.isLt, fun n hn => ?_⟩
  · obtain ⟨w, -, rfl⟩ := List.mem_map.1 hv
    exact Nat.le_of_lt_succ w.isLt
  · obtain ⟨w, -, rfl⟩ := List.mem_map.1 hv
    exact Nat.le_of_lt_succ w.isLt
  · simpa [State.snapshot] using (s.stackFits_iff _).1 hfits n (hdepth ▸ hn)

/-- Overwriting with the snapshot of `s` gives the registers, stack and pc of `s` and keeps all else (R226,
R228). -/
theorem State.overwrite_snapshot (t s : State) :
    t.overwrite s.snapshot = { t with regs := s.regs, stack := s.stack, pc := s.pc } := by
  have hregs : (t.overwrite s.snapshot).regs = s.regs := by
    apply Vector.ext
    intro i hi
    simp [State.overwrite, State.snapshot]
  have hstack : (t.overwrite s.snapshot).stack = s.stack := by
    simp [State.snapshot, Function.comp_def]
  have hpc : (t.overwrite s.snapshot).pc = s.pc := by simp [State.snapshot]
  rw [← hregs, ← hstack, ← hpc]
  rfl

/-- Settles O50: the block can hold the snapshot, and overwrites with it. -/
theorem restoreGivesBackWhatWasSaved : Obligations.RestoreGivesBackWhatWasSaved := by
  intro s t p hsave hfits hdepth ht
  obtain ⟨-, rfl⟩ := State.save_eq_some_iff.1 hsave
  have hmove := t.hostMove_restore_of_canRestore ht (State.canRestore_snapshot hfits hdepth)
  rw [t.overwrite_snapshot s] at hmove
  exact ⟨_, hmove, rfl, rfl, rfl, rfl⟩

/-! ## The host's lines (60_exceptions.md R215, R222) -/

/-- No effect of an instruction touches the run enable or the reset line. -/
theorem ExecEffect.keepsLines {i : Instr} {s t : State} (h : ExecEffect i s t) :
    t.runEnable = s.runEnable ∧ t.inReset = s.inReset := by
  cases h with
  | retires hrow =>
    obtain ⟨-, -, -, -, -, -, -, -, -, henable, hreset⟩ := hrow.keepsOutside
    exact ⟨henable, hreset⟩
  | faults => exact ⟨rfl, rfl⟩

theorem step_keepsLines {s t : State} (h : step s = .next t) :
    t.runEnable = s.runEnable ∧ t.inReset = s.inReset := by
  obtain ⟨-, ⟨why, -, rfl⟩ | ⟨i, rest, -, hexec⟩⟩ := step_cases h
  · obtain ⟨kind, op, access, addr, -, heq⟩ := s.takeDecodeFault_eq_takeFault why
    rw [heq]
    exact ⟨rfl, rfl⟩
  · exact (execEffect_of_exec hexec).keepsLines

/-- Settles O56: fault entry and every row keep the lines, and the host's moves are told apart one by one. -/
theorem onlyTheHostsOwnMovesChangeItsLines : Obligations.OnlyTheHostsOwnMovesChangeItsLines := by
  refine ⟨fun s t => step_keepsLines, fun s t m h => ?_⟩
  obtain ⟨rfl, rfl⟩ | ⟨image, -, -, -, rfl⟩ | ⟨rfl, rfl⟩ | ⟨on, rfl, rfl⟩ | ⟨p, -, -, -, rfl⟩ :=
    State.hostMove_cases h
  · exact ⟨absurd rfl, fun _ => .inl rfl⟩
  · exact ⟨absurd rfl, absurd rfl⟩
  · exact ⟨absurd rfl, fun _ => .inr rfl⟩
  · exact ⟨fun _ => ⟨on, rfl⟩, absurd rfl⟩
  · exact ⟨absurd rfl, absurd rfl⟩

/-- Settles O55: each of these moves is done in every state and writes its own line. -/
theorem hostLinesChangeNothingElse : Obligations.HostLinesChangeNothingElse :=
  fun _ => ⟨fun _ => ⟨_, rfl, rfl, rfl⟩, _, rfl, rfl, rfl⟩

end Sys2Proof.Machine

namespace Sys2Proof.Machine

/-! ## Reset and the load (70_reset_and_hazards.md R240 to R246) -/

/-- Where the block is not running no step answers a next state. -/
theorem step_ne_next_of_not_running {s : State} (h : s.run ≠ .running) (t : State) : step s ≠ .next t := by
  intro hstep
  obtain ⟨hsteps, -⟩ := step_cases hstep
  exact h (s.noStep?_eq_none_iff.1 hsteps).1

/-- Settles O45: a step needs `RUNNING`, and the host's moves other than reset keep the run state. -/
theorem onlyResetLeavesAStoppedRun : Obligations.OnlyResetLeavesAStoppedRun := by
  refine fun s hstopped => ⟨step_ne_next_of_not_running hstopped, fun m t h hne => ?_⟩
  obtain ⟨rfl, -⟩ | ⟨image, -, -, -, rfl⟩ | ⟨-, rfl⟩ | ⟨on, -, rfl⟩ | ⟨p, -, -, -, rfl⟩ :=
    State.hostMove_cases h
  · rfl
  · exact absurd rfl hne
  · exact absurd rfl hne
  · exact absurd rfl hne
  · exact absurd rfl hne

theorem State.hostMove_load_of_inReset {s : State} {image : List Word} (hreset : s.inReset = true)
    (hfits : image.length ≤ Config.memLimit) : s.hostMove (.load image) = .done (s.withImage image) :=
  if_pos (by simp [hreset, hfits])

/-- A load outside reset, or of more than 32768 cells, is no move (log 12). -/
theorem State.hostMove_load_eq_noMove {s : State} {image : List Word}
    (h : s.inReset = false ∨ Config.memLimit < image.length) : s.hostMove (.load image) = .noMove := by
  refine if_neg fun hc => ?_
  obtain ⟨hreset, hfits⟩ : s.inReset = true ∧ image.length ≤ Config.memLimit := by simpa using hc
  rcases h with hout | hlong
  · cases hout.symm.trans hreset
  · exact Nat.not_le.2 hlong hfits

/-- Memory after a load holds the image, cell by cell. -/
theorem State.cell_withImage (s : State) {image : List Word} {k : Nat} (h : k < image.length) :
    (s.withImage image).cell k = image[k] := by
  simpa only [State.cell, State.withImage_mem, Nat.zero_add] using Memory.readCell_ofImage 0 image k h

/-- Settles O46: in reset an image that fits becomes memory, and any other load is no move. -/
theorem loadPlacesTheImage : Obligations.LoadPlacesTheImage := by
  refine fun s image => ⟨fun hreset hfits => ?_, State.hostMove_load_eq_noMove⟩
  exact ⟨_, State.hostMove_load_of_inReset hreset hfits, s.withImage_memWords image,
    fun k hk => s.cell_withImage hk, rfl⟩

/-- What the host reads after reset: `RUNNING`, and a record that names no fault (R240, decision D8). -/
theorem State.status_enterReset (s : State) : s.enterReset.status = ⟨0, 0, 0, 0, 0, 0, 0, 0, 0, 0⟩ := rfl

/-- Settles O44: the host's reset is `enterReset`, which sets every item of the reset table and nothing else but
the reset line. -/
theorem assertingResetLeavesTheResetValues : Obligations.AssertingResetLeavesTheResetValues := by
  intro s
  have hvalues : ResetLeaves s s.enterReset :=
    ⟨s.reg_enterReset, s.enterReset_pc, s.enterReset_stack, s.enterReset_run, s.status_enterReset,
      s.enterReset_mem, s.enterReset_memWords, s.enterReset_output⟩
  exact ⟨_, rfl, hvalues, s.enterReset_inReset, s.enterReset_runEnable, s.enterReset_stackDepth,
    s.enterReset_polls⟩

end Sys2Proof.Machine

namespace Sys2Proof

/-! ## Decoding an encoding, format by format (30_encoding.md R72) -/

section
variable (op : Word) (rest : List Word)

@[simp] theorem readS_sourceCell (mk : Source → Instr) (a : Source) :
    readS op (sourceCell a :: rest) mk = .instr (mk a) rest := by
  simp [readS]

@[simp] theorem readD_registerCell (mk : RegIndex → Instr) (d : RegIndex) :
    readD op (registerCell d :: rest) mk = .instr (mk d) rest := by
  simp [readD]

@[simp] theorem readSS_sourceCells (mk : Source → Source → Instr) (a b : Source) :
    readSS op (sourceCell a :: sourceCell b :: rest) mk = .instr (mk a b) rest := by
  simp [readSS]

@[simp] theorem readDS_registerCell (mk : RegIndex → Source → Instr) (d : RegIndex) (a : Source) :
    readDS op (registerCell d :: sourceCell a :: rest) mk = .instr (mk d a) rest := by
  simp [readDS]

@[simp] theorem readDSS_registerCell (mk : RegIndex → Source → Source → Instr) (d : RegIndex) (a b : Source) :
    readDSS op (registerCell d :: sourceCell a :: sourceCell b :: rest) mk = .instr (mk d a b) rest := by
  simp [readDSS]

end

theorem decode_encode_append (i : Instr) (rest : List Word) : decode (encode i ++ rest) = .instr i rest := by
  cases i with
  | halt | ret | noop => rfl
  | push a | jmp a | call a | out a => exact readS_sourceCell _ rest _ a
  | pop d | input d => exact readD_registerCell _ rest _ d
  | jt a b | jf a b | wmem a b => exact readSS_sourceCells _ rest _ a b
  | set d a | not d a | rmem d a => exact readDS_registerCell _ rest _ d a
  | eq d a b | gt d a b | add d a b | mult d a b | mod d a b | and d a b | or d a b =>
    exact readDSS_registerCell _ rest _ d a b

/-- Settles O3: the opcode cell selects the instruction's format, which reads its operand cells back. -/
theorem decodeOfEncodeIsTheInstruction : Obligations.DecodeOfEncodeIsTheInstruction :=
  decode_encode_append

theorem decode_of_opcodeOf_eq_none {op : Word} (h : opcodeOf op = none) (cells : List Word) :
    decode (op :: cells) = .failed (.unknownOpcode op) := by
  simp only [decode, h]

/-- Settles O2: each sequence but the last is an encoding and the cells after it, and 32768 is past the
opcodes. -/
theorem spelledOutCellsDecodeAsTheSpecReadsThem : Obligations.SpelledOutCellsDecodeAsTheSpecReadsThem :=
  ⟨decode_encode_append (.add 0 (.reg 1) (.lit 4)) [19, 32768, 0],
    decode_encode_append (.out (.reg 0)) [0],
    decode_encode_append .halt [],
    decode_encode_append (.set 2 (.lit 1234)) [],
    decode_encode_append (.push (.reg 7)) [],
    decode_encode_append (.eq 0 (.reg 1) (.lit 5)) [],
    decode_encode_append (.jt (.reg 0) (.lit 3)) [],
    decode_encode_append (.wmem (.lit 7) (.reg 1)) [],
    decode_encode_append (.call (.lit 8)) [],
    decode_encode_append (.input 3) [],
    decode_encode_append .noop [],
    decode_of_opcodeOf_eq_none (opcodeOf_of_le (by decide)) []⟩

end Sys2Proof

namespace Sys2Proof.Machine

/-! ## The invariant at reset, under the host's moves, and along every run -/

/-- The empty stack is within any STACK_DEPTH. -/
theorem State.stackFits_zero (s : State) : s.stackFits 0 = true :=
  (s.stackFits_iff 0).2 fun n _ => n.zero_le

/-- The reset state meets the invariant at every STACK_DEPTH (log 5). -/
theorem State.inv_reset_withStackDepth (depth : Option Nat) : { State.reset with stackDepth := depth }.Inv :=
  ⟨rfl, rfl, Nat.zero_le _, State.stackFits_zero _, nofun, fun _ => rfl⟩

/-- Settles O51: the reset state is the unbounded one. -/
theorem resetMeetsTheInvariant : Obligations.ResetMeetsTheInvariant :=
  State.inv_reset_withStackDepth none

section
variable {s : State}

theorem State.Inv.enterReset (h : s.Inv) : s.enterReset.Inv := by
  obtain ⟨hwf, hbelow, hlimit, -⟩ := h
  exact ⟨hwf, hbelow, hlimit, s.stackFits_zero, nofun, fun _ => rfl⟩

theorem State.Inv.withImage (h : s.Inv) {image : List Word} (hlen : image.length ≤ Config.memLimit) :
    (s.withImage image).Inv := by
  obtain ⟨-, -, -, hrest⟩ := h
  exact ⟨Memory.ofImage_wf 0 image, Memory.ofImage_below 0 image (Nat.zero_add _).le, hlen, hrest⟩

theorem State.stackFits_of_canRestore {p : Snapshot} (h : s.canRestore p = true) :
    s.stackFits p.stack.length = true := by
  obtain ⟨-, -, -, -, hstack⟩ := (s.canRestore_iff p).1 h
  exact (s.stackFits_iff _).2 hstack

theorem State.Inv.overwrite (h : s.Inv) {p : Snapshot} (hp : s.canRestore p = true) : (s.overwrite p).Inv := by
  have hfits : s.stackFits (s.overwrite p).stack.length = true := by
    rw [State.overwrite_stack, List.length_map]
    exact State.stackFits_of_canRestore hp
  exact h.withStack hfits

end

/-- Settles O53: a load leaves its image alone in memory, a restore a stack that fits, reset an empty stack and
no fault; the lines are no part of the invariant. -/
theorem hostMovesKeepTheInvariant : Obligations.HostMovesKeepTheInvariant := by
  intro s t m hinv h
  obtain ⟨-, rfl⟩ | ⟨image, -, -, hlen, rfl⟩ | ⟨-, rfl⟩ | ⟨on, -, rfl⟩ | ⟨p, -, -, hp, rfl⟩ :=
    State.hostMove_cases h
  · exact hinv.enterReset
  · exact hinv.withImage hlen
  · exact hinv
  · exact hinv
  · exact hinv.overwrite hp

/-- Settles O54, by induction on how the state is reached. -/
theorem reachableStatesMeetTheInvariant : Obligations.ReachableStatesMeetTheInvariant := by
  intro s hs
  induction hs with
  | start depth => exact State.inv_reset_withStackDepth depth
  | step _ h ih => exact stepKeepsTheInvariant _ _ ih h
  | move m _ h ih => exact hostMovesKeepTheInvariant _ _ m ih h

end Sys2Proof.Machine
